-- ==== Sys2Proof/Word.lean ====
section
/-!
DEFINITION. The words of the block and its two plainest name types: an element (00_scope R7), a command word (30_encoding
R49), the two ports (00_scope R15) and the codes of the three runtime faults (60_exceptions, section 3).
-/

namespace Sys2Proof

/-- One element of the queue: DATA_W = 32 bits, moved unchanged and never interpreted (00_scope R7, 30_encoding R51). -/
abbrev Elem := BitVec 32

/-- A command word: `op[33:32]` and `data[31:0]` (30_encoding R49). -/
abbrev CmdWord := BitVec 34

/-- The two command ports, which are also the two roles (00_scope R15, 60_exceptions R107). -/
inductive Port where
  /-- the producer port P -/
  | p
  /-- the consumer port C -/
  | c
deriving DecidableEq, Repr

/-- The runtime fault codes that can be recorded (60_exceptions R100, R101, R102). Codes 0x4 to 0xF are never raised, so
they have no constructor. -/
inductive FaultCode where
  /-- 0x1: a word with op = 11 -/
  | illegalOp
  /-- 0x2: PUT on port C, or GET on port P -/
  | portRole
  /-- 0x3: a GET that would succeed finds its slot unwritten -/
  | unwrittenSlot
deriving DecidableEq, Repr

end Sys2Proof
end

