-- ==== Sys2Proof/Machine/Gray.lean ====
section
/-!
DEFINITION. The binary-reflected gray code of 42_cdc R83 and R84, on pointers as natural numbers below `2^PTR_W`.
-/

namespace Sys2Proof.Machine

/-- Binary to gray: `b xor (b >> 1)` (42_cdc R83). -/
def bin2gray (b : Nat) : Nat :=
  b ^^^ (b >>> 1)

/-- Gray to binary for a `width`-bit value: bit `i` of the result is bit `i` of `g` xor bit `i + 1` of the result
(42_cdc R84), which is `g` xor the decoding of `g >> 1`. -/
def gray2bin : (width g : Nat) → Nat
  | 0, _ => 0
  | width + 1, g => g ^^^ gray2bin width (g >>> 1)

end Sys2Proof.Machine
end

