-- ==== Sys2Proof/Config.lean ====
section
/-!
DEFINITION. The elaboration parameters CAPACITY, CDC and SYNC_STAGES (00_scope R6, R9, R10), the pointer width PTR_W (R8),
the refusals of a bad configuration (60_exceptions R97 to R99) and the accepted configuration `Cfg`, which carries the
proof that no refusal applies. The block has no free value: where the spec leaves `c_data` open it says that a model gives
it no value (40_fifo_ops R71, 93 I1).
-/

namespace Sys2Proof

/-- `clog2 n` is the least `k` with `2^k ≥ n` (00_scope R8; `clog2_spec` in Laws/Config.lean says so). -/
def clog2 (n : Nat) : Nat :=
  if n ≤ 1 then 0 else Nat.log2 (n - 1) + 1

/-- PTR_W, the width of every pointer (00_scope R8). -/
def ptrWidth (capacity : Nat) : Nat :=
  max 1 (clog2 capacity)

/-- `n` is a power of two. -/
def isPowerOfTwo (n : Nat) : Bool :=
  n == 2 ^ clog2 n

/-- The configuration refusals of 60_exceptions, section 2. -/
inductive CfgRefusal where
  /-- CFG_CAPACITY: CAPACITY < 2 (R97) -/
  | capacity
  /-- CFG_CDC_CAPACITY: CDC with a CAPACITY that is not a power of two (R98) -/
  | cdcCapacity
  /-- CFG_SYNC_STAGES: CDC with SYNC_STAGES < 2 (R99) -/
  | syncStages
deriving DecidableEq, Repr

/-- The model-only codes of the refusals (the table of 60_exceptions, section 2). -/
def CfgRefusal.code : CfgRefusal → BitVec 4
  | .capacity => 0x8#4
  | .cdcCapacity => 0x9#4
  | .syncStages => 0xA#4

/-- The first refusal that applies, in the order of 60_exceptions R99; `none` for an accepted configuration. -/
def cfgRefusal (capacity : Nat) (cdc : Bool) (syncStages : Nat) : Option CfgRefusal :=
  if capacity < 2 then some .capacity
  else if cdc && !isPowerOfTwo capacity then some .cdcCapacity
  else if cdc && decide (syncStages < 2) then some .syncStages
  else none

/-- An accepted configuration. A refused one has no state at all (00_scope R16), so the check is part of the data. -/
structure Cfg where
  capacity : Nat
  cdc : Bool
  syncStages : Nat
  accepted : cfgRefusal capacity cdc syncStages = none
deriving DecidableEq, Repr

/-- PTR_W of a configuration (00_scope R8). -/
def Cfg.ptrW (c : Cfg) : Nat :=
  ptrWidth c.capacity

/-- How many stages each synchroniser chain has: SYNC_STAGES with CDC, none without, where the chains do not exist
(10_state R25). -/
def Cfg.stages (c : Cfg) : Nat :=
  if c.cdc then c.syncStages else 0

/-- The configuration `State.reset` is elaborated with. DESIGN CHOICE (log 2), unsafe: CDC = false is the spec's default
(00_scope R9), CAPACITY = 5 is the one of the source's round-trip scenario (95 V1), SYNC_STAGES = 2 is read by nothing while
CDC = false. No statement rests on these numbers. -/
def Cfg.default : Cfg :=
  { capacity := 5, cdc := false, syncStages := 2, accepted := by decide }

end Sys2Proof
end

