-- ==== Sys2Proof/Syntax.lean ====
section
/-!
DEFINITION. The commands, one constructor per row of spec/opcode_table.json (30_encoding R50). Each carries the port that
presents it, since legality depends on the port (R54, R55). The `data` field of NOP and GET is ignored, any value decodes to
the same operation (R52), and nothing records the data of a reserved word (60_exceptions R100), so only PUT carries data.
-/

namespace Sys2Proof

/-- A command as the port `q` presents it. -/
inductive Instr where
  /-- op 00: the agent issues nothing this step (40_fifo_ops R63) -/
  | nop (q : Port)
  /-- op 01: put the element `v`; legal on P only (40_fifo_ops R64) -/
  | put (q : Port) (v : Elem)
  /-- op 10: get an element; legal on C only (40_fifo_ops R65) -/
  | get (q : Port)
  /-- op 11: reserved, spells no operation on either port (30_encoding R53) -/
  | reservedOp11 (q : Port)
deriving DecidableEq, Repr

/-- The port that presents the command. -/
def Instr.port : Instr → Port
  | .nop q => q
  | .put q _ => q
  | .get q => q
  | .reservedOp11 q => q

end Sys2Proof
end

