-- ==== Sys2Proof/WellFormed.lean ====
section
/-!
DEFINITION. Which commands are legal on the port that presents them: the "legal on port" column of 30_encoding R50. An
ill-formed command still has a meaning: it raises the fault of 60_exceptions R100 or R101.
-/

namespace Sys2Proof

/-- Legal on its port (30_encoding R50, R53, R54). -/
def Instr.wf : Instr → Bool
  | .nop _ => true
  | .put q _ => q == .p
  | .get q => q == .c
  | .reservedOp11 _ => false

end Sys2Proof
end

