-- ==== Sys2Proof/Decode.lean ====
section
/-!
DEFINITION. Decoding a 34-bit word for a port (30_encoding R55), total: every word decodes and the decoder never refuses.
Then the illegal verdicts of R53 and R54, the encoder of R57, and `decodeTableWord`, which reads a word numbered as
spec/opcode_table.json numbers it.
-/

namespace Sys2Proof

/-- `cmd[33:32]` (30_encoding R49). -/
def opField (w : CmdWord) : BitVec 2 :=
  w.extractLsb' 32 2

/-- `cmd[31:0]` (30_encoding R49), PUT's operand, taken whole (R51). -/
def dataField (w : CmdWord) : Elem :=
  w.extractLsb' 0 32

/-- The command that port `q` presents with the word `w` (30_encoding R50, R55). -/
def decode (q : Port) (w : CmdWord) : Instr :=
  if opField w = 0b00#2 then .nop q
  else if opField w = 0b01#2 then .put q (dataField w)
  else if opField w = 0b10#2 then .get q
  else .reservedOp11 q

/-- The illegal verdict of 30_encoding R55: the fault a command raises on its port by decoding alone, if any. -/
def Instr.verdict : Instr → Option FaultCode
  | .nop _ => none
  | .put q _ => if q = .p then none else some .portRole
  | .get q => if q = .c then none else some .portRole
  | .reservedOp11 _ => some .illegalOp

/-- The `op` selector of a command (30_encoding R50). -/
def Instr.op : Instr → BitVec 2
  | .nop _ => 0b00#2
  | .put _ _ => 0b01#2
  | .get _ => 0b10#2
  | .reservedOp11 _ => 0b11#2

/-- The `data` field an assembler writes: PUT's element, and zero where the field is ignored (30_encoding R52). The zero of a
reserved word is a DESIGN CHOICE (log 21), safe: nothing reads those bits. -/
def Instr.data : Instr → Elem
  | .nop _ => 0#32
  | .put _ v => v
  | .get _ => 0#32
  | .reservedOp11 _ => 0#32

/-- The command word of a command (30_encoding R49, R57). -/
def encode (i : Instr) : CmdWord :=
  i.op ++ i.data

/-- The port on which a bare table word is presented: C for a GET word, whose only legal port it is, else P
(the "ports" of spec/opcode_table.json; DESIGN CHOICE for the reserved word, log 14). -/
def tablePort (w : CmdWord) : Port :=
  if opField w = 0b10#2 then .c else .p

/-- The command read from a table word. A word is one 34-bit command (30_encoding R49, R56): a number with a bit above bit 33
is no command word, and `none` answers it. -/
def decodeTableWord (_nbits w : Nat) : Option Instr :=
  if w < 2 ^ 34 then
    some (decode (tablePort (BitVec.ofNat 34 w)) (BitVec.ofNat 34 w))
  else none

end Sys2Proof
end

