-- ==== Sys2Proof/Machine/State.lean ====
section
/-!
DEFINITION. The state of the block as plain data: the record of 10_state R17, the configuration it was elaborated with
(log 1), what the environment does next (log 5) and the port responses of the step just taken (log 6); the reasons a step
stops; and the state right after reset (10_state R32, 70_reset_and_hazards R110).
-/

namespace Sys2Proof.Machine

open Sys2Proof

/-- The slot storage: pairs of a slot number and the element in it, slot numbers strictly rising; a slot that is not listed
is unwritten and holds no value (10_state R21, R22; 20_memory R34). The whole 32-bit element is the only unit of access
(20_memory R35, R38), so the cells are elements and not bytes (log 4). -/
abbrev Memory := List (Nat × Elem)

/-- What resetting only a part could name; every one of them is refused (70_reset_and_hazards R112). -/
inductive ResetPart where
  | producerDomain
  | consumerDomain
  | cursors
  | slots
  | fault
  | chains
deriving DecidableEq, Repr

/-- What the environment does in one step: the agents' commands, the synchronisers' edges and the host's reset
(00_scope R15, 40_fifo_ops R66, 42_cdc R90, 70_reset_and_hazards R110). -/
inductive Event where
  /-- one cycle of `clk` with a word on each port (CDC = false; 40_fifo_ops R66, R67) -/
  | cycle (pCmd cCmd : CmdWord)
  /-- a step of the producer alone -/
  | stepP (pCmd : CmdWord)
  /-- a step of the consumer alone -/
  | stepC (cCmd : CmdWord)
  /-- a step of the head synchroniser SH (42_cdc R86) -/
  | stepSH
  /-- a step of the tail synchroniser ST (42_cdc R87) -/
  | stepST
  /-- `rst` asserted while the ports present these words, which are ignored (70_reset_and_hazards R110, R111) -/
  | rst (pCmd cCmd : CmdWord)
  /-- a reset of one part alone (70_reset_and_hazards R112) -/
  | rstPart (part : ResetPart)
deriving DecidableEq, Repr

/-- The port responses of one step: `p_ok`, `c_ok` and `c_data` (40_fifo_ops R62). `c_data` has no value when `c_ok = 0`
(40_fifo_ops R71, 93 I1; log 8). -/
structure Resp where
  pOk : Bool
  cOk : Bool
  cData : Option Elem
deriving DecidableEq, Repr

/-- No success on either port and no data: NOP, a failed command, a fault, a reset, a synchroniser step. -/
def Resp.quiet : Resp :=
  { pOk := false, cOk := false, cData := none }

/-- The state: the spec's record (10_state R17), then the model's own fields `env` and `out`. -/
structure State where
  /-- the parameters of elaboration, which no step changes (00_scope R6; log 1) -/
  cfg : Cfg
  /-- the consumer's cursor, a PTR_W-bit pointer kept as a number (10_state R18; log 3) -/
  head : Nat
  /-- the producer's cursor (10_state R19; log 3) -/
  tail : Nat
  /-- the slot storage (10_state R21, R22) -/
  slots : Memory
  /-- the fault register (10_state R26) -/
  fault : Option (FaultCode × Port)
  /-- gray-coded past values of `head`, stage 1 first (10_state R25) -/
  hsync : List Nat
  /-- gray-coded past values of `tail`, stage 1 first (10_state R25) -/
  tsync : List Nat
  /-- the model's own: what the environment does in the steps to come, the next first -/
  env : List Event
  /-- the model's own: the responses of the step just taken, which no step reads -/
  out : Resp
deriving DecidableEq, Repr

/-- Why the machine stops. -/
inductive Fault where
  /-- Raised by every step of an agent (P, C, SH, ST, or an idle cycle) while the fault register holds `(code, port)`: the
  block takes no step until reset (60_exceptions R105, 93 I14: stuck). Safe: the model stops where the hardware does nothing. -/
  | blockFaulted (code : FaultCode) (port : Port)
  /-- Raised by a PUT or GET that would access a slot number at or above CAPACITY, which does not exist (20_memory R39; log 9).
  No run from reset reaches it. Safe. -/
  | slotOutOfRange
deriving DecidableEq, Repr

/-- Why a step or a host action is refused. -/
inductive Refusal where
  /-- Raised by an arm of `exec` for a command that has no meaning yet. Safe. -/
  | notModelled (mnemonic : String)
  /-- Raised by elaboration for a configuration the spec refuses (60_exceptions R97 to R99). Safe. -/
  | config (r : CfgRefusal)
  /-- Raised by a reset of one domain or one part alone (70_reset_and_hazards R112). Safe. -/
  | partialReset
  /-- Raised by a command presented before the first reset (70_reset_and_hazards R114). Safe. -/
  | beforeFirstReset
  /-- Raised by a reset or a command when nothing has been constructed (70_reset_and_hazards R113; log 19). Safe. -/
  | notConstructed
  /-- Raised by a second construction: parameters are fixed for the block's lifetime (00_scope R6, 70_reset_and_hazards
  R116; log 19). Safe. -/
  | parametersFixed
  /-- Raised by a synchroniser event when CDC = false, where that agent does not exist (00_scope R15, 10_state R25; log 11).
  Safe. -/
  | noSynchroniser
  /-- Raised by a cycle of both ports when CDC = true, where a step is a step of exactly one agent (40_fifo_ops R66; log 11).
  Safe. -/
  | noCommonClock
  /-- Raised by reading the fault outputs when they show a reserved code, 0x4 to 0xF (93 I6; log 18). Safe. -/
  | reservedFaultCode
deriving DecidableEq, Repr

/-- The reset state of a block elaborated with `cfg` (10_state R32, 70_reset_and_hazards R110). -/
def State.resetOf (cfg : Cfg) : State :=
  { cfg := cfg
    head := 0
    tail := 0
    slots := []
    fault := none
    hsync := List.replicate cfg.stages 0
    tsync := List.replicate cfg.stages 0
    env := []
    out := Resp.quiet }

/-- The machine right after reset, elaborated with `Cfg.default` (log 2). -/
def State.reset : State :=
  State.resetOf Cfg.default

end Sys2Proof.Machine
end

