-- ==== Sys2Proof/Machine/Operands.lean ====
section
/-!
DEFINITION. The operands of the commands. PUT's explicit operand is the data field, taken by the decoder; every other operand
is implicit: the two cursors, the next cursor (41_status R72) and the view of the other side's cursor (10_state R24).
-/

namespace Sys2Proof.Machine

open Sys2Proof

/-- Modular increment of a pointer (41_status R72). -/
def inc (capacity p : Nat) : Nat :=
  if p = capacity - 1 then 0 else p + 1

/-- Pointer equality, the only comparison the block makes (41_status R73). -/
def pointerEq (a b : Nat) : Bool :=
  a == b

/-- `next_tail` of PUT (40_fifo_ops R64). -/
def nextTail (s : State) : Nat :=
  inc s.cfg.capacity s.tail

/-- The next `head` of GET (40_fifo_ops R65). -/
def nextHead (s : State) : Nat :=
  inc s.cfg.capacity s.head

/-- Stage SYNC_STAGES of a chain. Only a chain of the wrong length, which no run from reset has, lacks that stage: it then
reads as the stage's reset value (log 10). -/
def lastStage (cfg : Cfg) (chain : List Nat) : Nat :=
  chain.getD (cfg.syncStages - 1) 0

/-- The producer's view of `head` (10_state R24). -/
def hview (s : State) : Nat :=
  if s.cfg.cdc then gray2bin s.cfg.ptrW (lastStage s.cfg s.hsync) else s.head

/-- The consumer's view of `tail` (10_state R24). -/
def tview (s : State) : Nat :=
  if s.cfg.cdc then gray2bin s.cfg.ptrW (lastStage s.cfg s.tsync) else s.tail

end Sys2Proof.Machine
end

