-- ==== Sys2Proof/Machine/Flags.lean ====
section
/-!
DEFINITION. The status outputs, which are pure functions of the state (41_status R74 to R76, R81), the true status that only
proofs use (R79), the fault outputs (10_state R26) and the outputs of 40_fifo_ops R62 as one record. The block stores no flag
(10_state R30).
-/

namespace Sys2Proof.Machine

open Sys2Proof

/-- `c_empty` (41_status R74). -/
def cEmpty (s : State) : Bool :=
  pointerEq s.head (tview s)

/-- `p_full` (41_status R75). -/
def pFull (s : State) : Bool :=
  pointerEq (nextTail s) (hview s)

/-- `(ahead - behind + CAPACITY) mod CAPACITY` on mathematical integers (00_scope R13, 41_status R76). -/
def modDistance (capacity ahead behind : Nat) : Nat :=
  (((ahead : Int) - (behind : Int) + (capacity : Int)) % (capacity : Int)).toNat

/-- `p_count` (41_status R76). -/
def pCount (s : State) : Nat :=
  modDistance s.cfg.capacity s.tail (hview s)

/-- `c_count` (41_status R76). -/
def cCount (s : State) : Nat :=
  modDistance s.cfg.capacity (tview s) s.head

/-- `count_true`, the true occupancy, for proofs (41_status R79). -/
def countTrue (s : State) : Nat :=
  modDistance s.cfg.capacity s.tail s.head

/-- `empty_true` (41_status R79). -/
def emptyTrue (s : State) : Bool :=
  countTrue s == 0

/-- `full_true` (41_status R79). -/
def fullTrue (s : State) : Bool :=
  countTrue s == s.cfg.capacity - 1

/-- The code of a runtime fault (60_exceptions, section 3). -/
def faultCodeBits : FaultCode → BitVec 4
  | .illegalOp => 0x1#4
  | .portRole => 0x2#4
  | .unwrittenSlot => 0x3#4

/-- 0 for P, 1 for C (10_state R26). -/
def portBit : Port → BitVec 1
  | .p => 0#1
  | .c => 1#1

/-- The output `fault_code[3:0]`, 0x0 when there is no fault (10_state R26). -/
def faultCodeOut (s : State) : BitVec 4 :=
  match s.fault with
  | none => 0x0#4
  | some (code, _) => faultCodeBits code

/-- The output `fault_port[0]`, 0 when there is no fault (10_state R26). -/
def faultPortOut (s : State) : BitVec 1 :=
  match s.fault with
  | none => 0#1
  | some (_, q) => portBit q

/-- The port that a fault port bit names (10_state R26). -/
def portOfBit (port : BitVec 1) : Port :=
  if port = 0#1 then .p else .c

/-- What the host reads from the two fault outputs; a reserved code is refused (93 I6). -/
def readFaultOutputs (code : BitVec 4) (port : BitVec 1) :
    Host.Outcome (Option (FaultCode × Port)) Fault Refusal :=
  if code = 0x0#4 then .next none
  else if code = 0x1#4 then .next (some (.illegalOp, portOfBit port))
  else if code = 0x2#4 then .next (some (.portRole, portOfBit port))
  else if code = 0x3#4 then .next (some (.unwrittenSlot, portOfBit port))
  else .refused .reservedFaultCode

/-- Every output signal of 40_fifo_ops R62. The counts are PTR_W-bit values given as numbers. -/
structure Outputs where
  pOk : Bool
  pFull : Bool
  pCount : Nat
  cOk : Bool
  cData : Option Elem
  cEmpty : Bool
  cCount : Nat
  faultCode : BitVec 4
  faultPort : BitVec 1
deriving DecidableEq, Repr

/-- The output signals in a state: the responses of the step just taken, and the levels (40_fifo_ops R62, 41_status R81). -/
def outputs (s : State) : Outputs :=
  { pOk := s.out.pOk
    pFull := pFull s
    pCount := pCount s
    cOk := s.out.cOk
    cData := s.out.cData
    cEmpty := cEmpty s
    cCount := cCount s
    faultCode := faultCodeOut s
    faultPort := faultPortOut s }

end Sys2Proof.Machine
end

