-- ==== Sys2Proof/Machine/Ops.lean ====
section
/-!
DEFINITION. The named operations over the state: reading and writing one slot, responding on the ports, recording a fault
(60_exceptions R103), stopping a faulted block (R105), the two publishing updates of PUT and GET, the merge of a simultaneous
step (40_fifo_ops R67) and reset (70_reset_and_hazards R110).
-/

namespace Sys2Proof.Machine

open Sys2Proof

/-- `MemRead(i, 4)`: the whole element of slot `i`, or no value when it is unwritten (00_scope R14, 10_state R22). -/
def Memory.read (m : Memory) (i : Nat) : Option Elem :=
  match m with
  | [] => none
  | (j, v) :: rest => if j = i then some v else Memory.read rest i

/-- `MemWrite(i, 4, v)`: slot `i` holds `v`, every other slot is as before, slot numbers still rise (00_scope R14). -/
def Memory.write (m : Memory) (i : Nat) (v : Elem) : Memory :=
  match m with
  | [] => [(i, v)]
  | (j, w) :: rest =>
    if i < j then (i, v) :: (j, w) :: rest
    else if j = i then (i, v) :: rest
    else (j, w) :: Memory.write rest i v

/-- Every slot number listed is at least `low`, and they strictly rise. -/
def Memory.risesFrom (low : Nat) (m : Memory) : Bool :=
  match m with
  | [] => true
  | (j, _) :: rest => decide (low ≤ j) && Memory.risesFrom (j + 1) rest

/-- The canonical form: slot numbers strictly rise. No entry can equal what an unlisted slot reads as, which is no value. -/
def Memory.wf (m : Memory) : Bool :=
  Memory.risesFrom 0 m

/-- The slots `0 .. CAPACITY-1` in order, each with its value or none, as a state is written in 95, section 1. -/
def Memory.view (m : Memory) (capacity : Nat) : List (Option Elem) :=
  (List.range capacity).map (Memory.read m)

/-- Sets the port responses of this step (00_scope R14, 40_fifo_ops R71). -/
def respond (r : Resp) (s : State) : State :=
  { s with out := r }

/-- Sets what the environment does in the steps to come (log 5). -/
def setEnv (es : List Event) (s : State) : State :=
  { s with env := es }

/-- Fault entry: records `(code, port)` and changes nothing else; the responses are quiet (60_exceptions R103). -/
def raiseFault (code : FaultCode) (q : Port) (s : State) : State :=
  { s with fault := some (code, q), out := Resp.quiet }

/-- A faulted block takes no step of any agent; there is no return from a fault but reset (60_exceptions R105). -/
def whenRunning (s : State) (k : Host.Outcome State Fault Refusal) :
    Host.Outcome State Fault Refusal :=
  match s.fault with
  | none => k
  | some (code, q) => .fault (.blockFaulted code q)

/-- A slot access: only slots `0 .. CAPACITY-1` exist (20_memory R34, R39). -/
def whenSlot (s : State) (i : Nat) (k : Host.Outcome State Fault Refusal) :
    Host.Outcome State Fault Refusal :=
  if i < s.cfg.capacity then k else .fault .slotOutOfRange

/-- The writes of a PUT that succeeds: the slot and the tail that publishes it, in one step (40_fifo_ops R64, 20_memory R41). -/
def storeElem (v : Elem) (s : State) : State :=
  { s with
    slots := Memory.write s.slots s.tail v
    tail := nextTail s
    out := { pOk := true, cOk := false, cData := none } }

/-- The write of a GET that succeeds with `v`: the head that frees the slot (40_fifo_ops R65, 20_memory R42). -/
def takeElem (v : Elem) (s : State) : State :=
  { s with
    head := nextHead s
    out := { pOk := false, cOk := true, cData := some v } }

/-- PUT on port P (40_fifo_ops R64). -/
def putElem (v : Elem) (s : State) : Host.Outcome State Fault Refusal :=
  if pFull s then .next (respond Resp.quiet s)
  else whenSlot s s.tail (.next (storeElem v s))

/-- GET on port C (40_fifo_ops R65). -/
def getElem (s : State) : Host.Outcome State Fault Refusal :=
  if cEmpty s then .next (respond Resp.quiet s)
  else
    whenSlot s s.head
      (match Memory.read s.slots s.head with
        | none => .next (raiseFault .unwrittenSlot .c s)
        | some v => .next (takeElem v s))

/-- The merge of a step in which both ports act: `sp` and `sc` are what P's and C's command alone make of the start state `s`;
PUT writes the slots and `tail`, GET writes `head` (40_fifo_ops R67). -/
def mergePorts (s sp sc : State) : State :=
  { s with
    head := sc.head
    tail := sp.tail
    slots := sp.slots
    out := { pOk := sp.out.pOk, cOk := sc.out.cOk, cData := sc.out.cData } }

/-- A step in which no agent issues anything (30_encoding R61). -/
def idle (s : State) : Host.Outcome State Fault Refusal :=
  whenRunning s (.next (respond Resp.quiet s))

/-- Reset of the whole state, keeping the elaboration parameters and what the environment does afterwards
(70_reset_and_hazards R110, R111; log 13). -/
def resetBlock (s : State) : State :=
  setEnv s.env (State.resetOf s.cfg)

end Sys2Proof.Machine
end

