-- ==== Sys2Proof/Machine/Fifo.lean ====
section
/-!
DEFINITION. The meanings of the four commands, each as the port that presents it executes it against the state at the start
of its step (40_fifo_ops R63 to R66; 60_exceptions R100, R101).
-/

namespace Sys2Proof.Machine

open Sys2Proof

/-- NOP on either port: responds 0 and writes no state (40_fifo_ops R63). -/
def execNop (_q : Port) (s : State) : Host.Outcome State Fault Refusal :=
  whenRunning s (.next (respond Resp.quiet s))

/-- PUT: on port P it puts the element (40_fifo_ops R64), on port C it raises PORT_ROLE (60_exceptions R101). -/
def execPut (q : Port) (v : Elem) (s : State) : Host.Outcome State Fault Refusal :=
  whenRunning s
    (match q with
      | .p => putElem v s
      | .c => .next (raiseFault .portRole .c s))

/-- GET: on port C it gets an element (40_fifo_ops R65), on port P it raises PORT_ROLE (60_exceptions R101). -/
def execGet (q : Port) (s : State) : Host.Outcome State Fault Refusal :=
  whenRunning s
    (match q with
      | .p => .next (raiseFault .portRole .p s)
      | .c => getElem s)

/-- The reserved word: raises ILLEGAL_OP on the port that presents it (30_encoding R53, 60_exceptions R100). -/
def execReservedOp11 (q : Port) (s : State) : Host.Outcome State Fault Refusal :=
  whenRunning s (.next (raiseFault .illegalOp q s))

end Sys2Proof.Machine
end

