-- ==== Sys2Proof/Machine/Dispatch.lean ====
section
/-!
DEFINITION. The dispatch of a command to its meaning, one arm per row of spec/opcode_table.json.
-/

namespace Sys2Proof.Machine

open Sys2Proof

/-- The effect of the command `i` in a step of its port alone (40_fifo_ops R66). -/
def exec (i : Instr) (s : State) : Host.Outcome State Fault Refusal :=
  match i with
  | .nop q => Sys2Proof.Machine.execNop q s
  | .put q v => Sys2Proof.Machine.execPut q v s
  | .get q => Sys2Proof.Machine.execGet q s
  | .reservedOp11 q => Sys2Proof.Machine.execReservedOp11 q s

end Sys2Proof.Machine
end

