-- ==== Sys2Proof/Machine/Cdc.lean ====
section
/-!
DEFINITION. The synchroniser agents of the clock-domain crossing (42_cdc R86, R87), and the hardware's clock edges, on which
a port's command and its domain's synchroniser shift happen at once (R89).
-/

namespace Sys2Proof.Machine

open Sys2Proof

/-- One shift of a chain: stage 1 takes the gray code of the sampled cursor, stage `k` takes the old stage `k - 1`
(42_cdc R86, R87). -/
def shiftChain (cfg : Cfg) (sample : Nat) (chain : List Nat) : List Nat :=
  (bin2gray sample :: chain).take cfg.syncStages

/-- The writes of an SH step: `hsync` samples `head` (42_cdc R86). -/
def sampleHead (s : State) : State :=
  { s with hsync := shiftChain s.cfg s.head s.hsync, out := Resp.quiet }

/-- The writes of an ST step: `tsync` samples `tail` (42_cdc R87). -/
def sampleTail (s : State) : State :=
  { s with tsync := shiftChain s.cfg s.tail s.tsync, out := Resp.quiet }

/-- The head synchroniser's step: samples `head` into the producer's domain (42_cdc R86). -/
def stepSH (s : State) : Host.Outcome State Fault Refusal :=
  if s.cfg.cdc then
    whenRunning s (.next (sampleHead s))
  else .refused .noSynchroniser

/-- The tail synchroniser's step: samples `tail` into the consumer's domain (42_cdc R87). -/
def stepST (s : State) : Host.Outcome State Fault Refusal :=
  if s.cfg.cdc then
    whenRunning s (.next (sampleTail s))
  else .refused .noSynchroniser

/-- One edge of `clk_p` in the hardware: the P command with the views before the edge and the SH shift, both from the state
before the edge (42_cdc R89; log 16). A fault of the command changes nothing but the fault register (60_exceptions R103). -/
def edgeClkP (i : Instr) (s : State) : Host.Outcome State Fault Refusal :=
  match exec i s with
  | .next t =>
    if t.fault.isSome then .next t
    else .next { t with hsync := shiftChain s.cfg s.head s.hsync }
  | o => o

/-- One edge of `clk_c` in the hardware, symmetrically (42_cdc R89). -/
def edgeClkC (i : Instr) (s : State) : Host.Outcome State Fault Refusal :=
  match exec i s with
  | .next t =>
    if t.fault.isSome then .next t
    else .next { t with tsync := shiftChain s.cfg s.tail s.tsync }
  | o => o

end Sys2Proof.Machine
end

