-- ==== Sys2Proof/Machine/Events.lean ====
section
/-!
DEFINITION. What one event of the environment does to the block (40_fifo_ops R66): a cycle of both ports (R67), a step of one
port (R68, 42_cdc R90; log 12), a synchroniser step, a reset; and how a command word is presented to the next step.
-/

namespace Sys2Proof.Machine

open Sys2Proof

/-- A step that carries a command from each port (CDC = false). Both are evaluated against the start state. If P's faults,
that fault is recorded; else if C's faults, that one; a fault is the step's only change. Otherwise the writes merge
(40_fifo_ops R66, R67; 60_exceptions R103, R104). -/
def bothPorts (ip ic : Instr) (s : State) : Host.Outcome State Fault Refusal :=
  match exec ip s with
  | .next sp =>
    if sp.fault.isSome then .next sp
    else
      match exec ic s with
      | .next sc => if sc.fault.isSome then .next sc else .next (mergePorts s sp sc)
      | o => o
  | o => o

/-- One event, performed on a state from whose `env` it is already taken. -/
def perform (e : Event) (s : State) : Host.Outcome State Fault Refusal :=
  match e with
  | .cycle pCmd cCmd =>
    if s.cfg.cdc then .refused .noCommonClock
    else bothPorts (decode .p pCmd) (decode .c cCmd) s
  | .stepP pCmd => exec (decode .p pCmd) s
  | .stepC cCmd => exec (decode .c cCmd) s
  | .stepSH => stepSH s
  | .stepST => stepST s
  | .rst _ _ => .next (resetBlock s)
  | .rstPart _ => .refused .partialReset

/-- Takes the next event of the environment and performs it; once the environment has none left, the agents present NOP
(30_encoding R61). -/
def stepEnv (s : State) : Host.Outcome State Fault Refusal :=
  match s.env with
  | [] => idle s
  | e :: rest => perform e (setEnv rest s)

/-- The event by which a port presents a word in a step of its own. -/
def presentOn (q : Port) (w : CmdWord) : Event :=
  match q with
  | .p => .stepP w
  | .c => .stepC w

/-- `s` with the word of a table row presented in the very next step, on the port `tablePort` names (log 14). -/
def presentTableWord (s : State) (w : Nat) : State :=
  setEnv (presentOn (tablePort (BitVec.ofNat 34 w)) (BitVec.ofNat 34 w) :: s.env) s

end Sys2Proof.Machine
end

