-- ==== Sys2Proof/Machine/Step.lean ====
section
/-!
DEFINITION. The step, and how the host places a command so that the next step runs it. The block fetches nothing (10_state R28,
20_memory R47): a command comes from outside, so placing one means that the environment presents it next (logs 5, 14).
-/

namespace Sys2Proof.Machine

open Sys2Proof

/-- One step of the block: the environment's next event (40_fifo_ops R66). -/
def step (s : State) : Host.Outcome State Fault Refusal :=
  stepEnv s

/-- `s` with the command word `w` presented in the next step. A number with a bit above bit 33 is no command word
(30_encoding R49) and places nothing. -/
def State.withFetchWord (s : State) (_nbits w : Nat) : State :=
  if w < 2 ^ 34 then presentTableWord s w else s

end Sys2Proof.Machine
end

