-- ==== Sys2Proof/Machine/Lifecycle.lean ====
section
/-!
DEFINITION. The host's side: elaboration (60_exceptions R97 to R99), the life of a block from construction through its first
reset to its run (70_reset_and_hazards R113, R114, R116), the responses each port receives, and the end of a run (R115).
-/

namespace Sys2Proof.Machine

open Sys2Proof

/-- Elaboration: the accepted configuration, or the first refusal that applies (60_exceptions R97 to R99). -/
def elaborate (capacity : Nat) (cdc : Bool) (syncStages : Nat) : Host.Outcome Cfg Fault Refusal :=
  match h : cfgRefusal capacity cdc syncStages with
  | none => .next { capacity := capacity, cdc := cdc, syncStages := syncStages, accepted := h }
  | some r => .refused (.config r)

/-- A run: the block and the responses each port has received since the run's reset, oldest first (70_reset_and_hazards
R115). -/
structure Run where
  state : State
  /-- `p_ok` of every step of port P -/
  pResponses : List Bool
  /-- `c_ok` and `c_data` of every step of port C -/
  cResponses : List (Bool × Option Elem)
deriving DecidableEq, Repr

/-- A run begins at the reset state (70_reset_and_hazards R114). -/
def Run.begin (cfg : Cfg) : Run :=
  { state := State.resetOf cfg, pResponses := [], cResponses := [] }

/-- Whether port P presents a command in the event. -/
def Event.actsP : Event → Bool
  | .cycle _ _ => true
  | .stepP _ => true
  | .stepC _ => false
  | .stepSH => false
  | .stepST => false
  | .rst _ _ => false
  | .rstPart _ => false

/-- Whether port C presents a command in the event. -/
def Event.actsC : Event → Bool
  | .cycle _ _ => true
  | .stepP _ => false
  | .stepC _ => true
  | .stepSH => false
  | .stepST => false
  | .rst _ _ => false
  | .rstPart _ => false

/-- Whether the event is a whole reset, which begins a new run (60_exceptions R105). -/
def Event.isReset : Event → Bool
  | .cycle _ _ => false
  | .stepP _ => false
  | .stepC _ => false
  | .stepSH => false
  | .stepST => false
  | .rst _ _ => true
  | .rstPart _ => false

/-- The record of a run after a step for `e` ended in `t`: each port that acted gets its response (40_fifo_ops R71); a reset
begins a new run, and what the agents had still to present is discarded (70_reset_and_hazards R121; log 13). -/
def Run.record (e : Event) (t : State) (r : Run) : Run :=
  if e.isReset then Run.begin t.cfg
  else
    { state := t
      pResponses := if e.actsP then r.pResponses ++ [t.out.pOk] else r.pResponses
      cResponses := if e.actsC then r.cResponses ++ [(t.out.cOk, t.out.cData)] else r.cResponses }

/-- One event of a run: it is presented as the block's next step. -/
def Run.present (e : Event) (r : Run) : Host.Outcome Run Fault Refusal :=
  match step (setEnv (e :: r.state.env) r.state) with
  | .next t => .next (r.record e t)
  | .fault f => .fault f
  | .refused f => .refused f

/-- Where the block is in its life (70_reset_and_hazards R113, R114). -/
inductive Life where
  /-- nothing has been elaborated -/
  | unbuilt
  /-- elaborated, not yet reset: there is no state to step -/
  | built (cfg : Cfg)
  /-- reset at least once -/
  | running (r : Run)
deriving DecidableEq, Repr

/-- What the host does, and what it lets the agents do (70_reset_and_hazards R116). -/
inductive HostAction where
  | construct (capacity : Nat) (cdc : Bool) (syncStages : Nat)
  | reset
  | resetPart (part : ResetPart)
  | present (e : Event)
deriving DecidableEq, Repr

/-- What a presented event does on a block that was never reset: `rst` resets it, whatever words the ports present
(70_reset_and_hazards R111, R113); a partial reset is refused (R112); every step of an agent is refused, since there is no state
to step (R114). -/
def presentBeforeReset (cfg : Cfg) (e : Event) : Host.Outcome Life Fault Refusal :=
  match e with
  | .rst _ _ => .next (.running (Run.begin cfg))
  | .rstPart _ => .refused .partialReset
  | .cycle _ _ => .refused .beforeFirstReset
  | .stepP _ => .refused .beforeFirstReset
  | .stepC _ => .refused .beforeFirstReset
  | .stepSH => .refused .beforeFirstReset
  | .stepST => .refused .beforeFirstReset

/-- The effect of a host action (70_reset_and_hazards R110 to R114, R116; the refusals out of order: log 19). A reset begins a
new run and discards every agent's place (R121; log 13). -/
def hostStep (a : HostAction) (l : Life) : Host.Outcome Life Fault Refusal :=
  match a, l with
  | .construct capacity cdc syncStages, .unbuilt =>
    match elaborate capacity cdc syncStages with
    | .next cfg => .next (.built cfg)
    | .fault f => .fault f
    | .refused f => .refused f
  | .construct _ _ _, .built _ => .refused .parametersFixed
  | .construct _ _ _, .running _ => .refused .parametersFixed
  | .reset, .unbuilt => .refused .notConstructed
  | .reset, .built cfg => .next (.running (Run.begin cfg))
  | .reset, .running r => .next (.running (Run.begin r.state.cfg))
  | .resetPart _, _ => .refused .partialReset
  | .present _, .unbuilt => .refused .notConstructed
  | .present e, .built cfg => presentBeforeReset cfg e
  | .present e, .running r =>
    match Run.present e r with
    | .next r' => .next (.running r')
    | .fault f => .fault f
    | .refused f => .refused f

/-- The observed result of a run (70_reset_and_hazards R115). -/
structure Observation where
  head : Nat
  tail : Nat
  /-- `slot[0 .. CAPACITY-1]` -/
  slots : List (Option Elem)
  fault : Option (FaultCode × Port)
  pResponses : List Bool
  cResponses : List (Bool × Option Elem)
deriving DecidableEq, Repr

/-- What the host observes at the end of a run (70_reset_and_hazards R115). -/
def Run.observe (r : Run) : Observation :=
  { head := r.state.head
    tail := r.state.tail
    slots := Memory.view r.state.slots r.state.cfg.capacity
    fault := r.state.fault
    pResponses := r.pResponses
    cResponses := r.cResponses }

/-- Whether an event carries no command but NOP (a word with op = 00). The words presented while `rst` is asserted are ignored,
but they are presented, so they count (log 20); a partial reset carries none. -/
def Event.commandsIdle : Event → Bool
  | .cycle pCmd cCmd => opField pCmd == 0b00#2 && opField cCmd == 0b00#2
  | .stepP pCmd => opField pCmd == 0b00#2
  | .stepC cCmd => opField cCmd == 0b00#2
  | .stepSH => true
  | .stepST => true
  | .rst pCmd cCmd => opField pCmd == 0b00#2 && opField cCmd == 0b00#2
  | .rstPart _ => true

/-- Whether the host may end the run here and call it successful: no fault, and both agents present nothing but NOP from here
on (70_reset_and_hazards R115; log 20). -/
def Run.endsSuccessfully (r : Run) : Bool :=
  r.state.fault.isNone && r.state.env.all Event.commandsIdle

end Sys2Proof.Machine
end

