-- ==== Sys2Proof/Machine/Assembler.lean ====
section
/-!
DEFINITION. The assembler text of 30_encoding R57 and R58 and the pseudo-commands `put!` and `get!` (R59, R60), read from lines
given as lists of characters. It stands outside the block: the block sees only command words.
-/

namespace Sys2Proof.Machine

open Sys2Proof

/-- A command or pseudo-command of a script (30_encoding R57, R59, R60). -/
inductive ScriptCmd where
  | nop
  | put (v : Elem)
  | get
  /-- `put!`: the same word until a step responds `p_ok = 1` -/
  | putRetry (v : Elem)
  /-- `get!`: the same word until a step responds `c_ok = 1` -/
  | getRetry
deriving DecidableEq, Repr

/-- The word a command is encoded as (30_encoding R57, R59, R60). -/
def ScriptCmd.word : ScriptCmd → CmdWord
  | .nop => 0x000000000#34
  | .put v => 0x100000000#34 + v.setWidth 34
  | .get => 0x200000000#34
  | .putRetry v => 0x100000000#34 + v.setWidth 34
  | .getRetry => 0x200000000#34

/-- Why the assembler rejects a line. -/
inductive AsmError where
  /-- the first word of a line is no mnemonic -/
  | unknownMnemonic
  /-- too few or too many words on the line -/
  | wrongOperands
  /-- the immediate is no number -/
  | badImmediate
  /-- the immediate is outside the ranges of 30_encoding R58 -/
  | immediateOutOfRange
  /-- a command stands before any heading `P:` or `C:` (30_encoding R57) -/
  | noPortHeading
deriving DecidableEq, Repr

/-- An immediate as it is written (30_encoding R58). -/
inductive Imm where
  | decimal (v : Int)
  | hex (n : Nat)
deriving DecidableEq, Repr

/-- The 32-bit pattern of an immediate: two's complement for a decimal in `[-2^31, 2^31 - 1]`, as is for a hexadecimal up to
`0xFFFFFFFF`; anything else is rejected (30_encoding R58). -/
def Imm.encode : Imm → Except AsmError Elem
  | .decimal v =>
    if -2147483648 ≤ v ∧ v ≤ 2147483647 then .ok (BitVec.ofInt 32 v)
    else .error .immediateOutOfRange
  | .hex n => if n ≤ 0xFFFFFFFF then .ok (BitVec.ofNat 32 n) else .error .immediateOutOfRange

/-- The value of a digit; both cases of a hexadecimal letter are read. No other character is a digit, so an immediate whose digits
are grouped with `_` is rejected: 00_scope R12 lets `_` group the digits of a literal of the spec's notation, and 30_encoding R58 is
silent on it in assembler text (DESIGN CHOICE, log 17). -/
def digitValue (c : Char) : Option Nat :=
  if '0'.toNat ≤ c.toNat ∧ c.toNat ≤ '9'.toNat then some (c.toNat - '0'.toNat)
  else if 'A'.toNat ≤ c.toNat ∧ c.toNat ≤ 'F'.toNat then some (c.toNat - 'A'.toNat + 10)
  else if 'a'.toNat ≤ c.toNat ∧ c.toNat ≤ 'f'.toNat then some (c.toNat - 'a'.toNat + 10)
  else none

/-- Reads digits of a base, most significant first, after the value `acc`. Leading zeros are read (log 17). -/
def digitsFrom (base acc : Nat) : List Char → Option Nat
  | [] => some acc
  | c :: rest =>
    match digitValue c with
    | none => none
    | some d => if d < base then digitsFrom base (acc * base + d) rest else none

/-- Reads a number of at least one digit. -/
def number (base : Nat) : List Char → Option Nat
  | [] => none
  | c :: rest => digitsFrom base 0 (c :: rest)

/-- Reads an immediate: `0x` and hexadecimal digits, or decimal digits with an optional minus sign (30_encoding R58).
R58 says only 'a signed decimal': the model rejects a leading plus sign, and likewise the prefix `0X` and a signed hexadecimal
(DESIGN CHOICE, log 17). -/
def parseImm : List Char → Except AsmError Imm
  | '0' :: 'x' :: digits =>
    match number 16 digits with
    | some n => .ok (.hex n)
    | none => .error .badImmediate
  | '-' :: digits =>
    match number 10 digits with
    | some n => .ok (.decimal (-(n : Int)))
    | none => .error .badImmediate
  | digits =>
    match number 10 digits with
    | some n => .ok (.decimal (n : Int))
    | none => .error .badImmediate

/-- The words of a line, split at spaces and tabs; `;` starts a comment (30_encoding R57). `word` is the word being read. -/
def wordsFrom (word : List Char) : List Char → List (List Char)
  | [] => if word.isEmpty then [] else [word]
  | c :: rest =>
    if c = ';' then (if word.isEmpty then [] else [word])
    else if c = ' ' ∨ c = '\t' ∨ c = '\r' then
      (if word.isEmpty then wordsFrom [] rest else word :: wordsFrom [] rest)
    else wordsFrom (word ++ [c]) rest

/-- The operand of `put` or `put!`. -/
def parseOperand (mk : Elem → ScriptCmd) : List (List Char) → Except AsmError ScriptCmd
  | [imm] => do
    let i ← parseImm imm
    let v ← i.encode
    return mk v
  | _ => .error .wrongOperands

/-- One command from the words of a line (30_encoding R57, R59, R60). -/
def parseCmd : List (List Char) → Except AsmError ScriptCmd
  | [] => .error .wrongOperands
  | mnemonic :: operands =>
    if mnemonic = ['n', 'o', 'p'] then (if operands.isEmpty then .ok .nop else .error .wrongOperands)
    else if mnemonic = ['p', 'u', 't'] then parseOperand .put operands
    else if mnemonic = ['p', 'u', 't', '!'] then parseOperand .putRetry operands
    else if mnemonic = ['g', 'e', 't'] then (if operands.isEmpty then .ok .get else .error .wrongOperands)
    else if mnemonic = ['g', 'e', 't', '!'] then
      (if operands.isEmpty then .ok .getRetry else .error .wrongOperands)
    else .error .unknownMnemonic

/-- The two scripts of a program, read so far. -/
structure Program where
  p : List ScriptCmd
  c : List ScriptCmd
deriving DecidableEq, Repr

/-- Adds a command to the script of port `q`. -/
def Program.add (q : Port) (cmd : ScriptCmd) (prog : Program) : Program :=
  match q with
  | .p => { prog with p := prog.p ++ [cmd] }
  | .c => { prog with c := prog.c ++ [cmd] }

/-- The port of a heading (30_encoding R57). -/
def headingPort (word : List Char) : Option Port :=
  if word = ['P', ':'] then some .p else if word = ['C', ':'] then some .c else none

/-- Adds the command of a line's words, if there are any, to the script of the port in force. -/
def addLine (q : Option Port) (words : List (List Char)) (prog : Program) : Except AsmError Program :=
  match words, q with
  | [], _ => .ok prog
  | _ :: _, none => .error .noPortHeading
  | w :: ws, some port => do
    let cmd ← parseCmd (w :: ws)
    return prog.add port cmd

/-- Reads lines: a heading `P:` or `C:`, on a line of its own or before a command, names the port of the commands that follow;
one command a line (30_encoding R57; log 17). R57 is silent on a heading that occurs twice: the model appends what follows it to the
port's script (DESIGN CHOICE, log 17). -/
def assembleLines (q : Option Port) (prog : Program) : List (List Char) → Except AsmError Program
  | [] => .ok prog
  | line :: rest =>
    match wordsFrom [] line with
    | [] => assembleLines q prog rest
    | w :: ws =>
      match headingPort w with
      | some port => do
        let prog' ← addLine (some port) ws prog
        assembleLines (some port) prog' rest
      | none => do
        let prog' ← addLine q (w :: ws) prog
        assembleLines q prog' rest

/-- The two scripts of a program text. -/
def assemble (lines : List (List Char)) : Except AsmError Program :=
  assembleLines none { p := [], c := [] } lines

end Sys2Proof.Machine
end

