-- ==== Sys2Proof/Machine/Script.lean ====
section
/-!
DEFINITION. The agents' scripts (30_encoding R59 to R61): the word a script presents, how its index moves with the response,
and a bench that runs two scripts against the block under a schedule, as the programs of 95, section 3 are run. The script
index is the caller's state, not the block's (10_state R28).
-/

namespace Sys2Proof.Machine

open Sys2Proof

/-- A script with its index `si` (30_encoding R61). -/
structure Script where
  cmds : List ScriptCmd
  si : Nat
deriving DecidableEq, Repr

/-- The word presented in a step where the agent acts; NOP once the script has ended (30_encoding R61). -/
def Script.word (sc : Script) : CmdWord :=
  match sc.cmds[sc.si]? with
  | none => ScriptCmd.nop.word
  | some cmd => cmd.word

/-- Whether the script has ended (30_encoding R61). -/
def Script.ended (sc : Script) : Bool :=
  decide (sc.cmds.length ≤ sc.si)

/-- The script after a step in which its agent acted and got the response `ok` (30_encoding R59 to R61). -/
def Script.advance (ok : Bool) (sc : Script) : Script :=
  match sc.cmds[sc.si]? with
  | none => sc
  | some .nop => { sc with si := sc.si + 1 }
  | some (.put _) => { sc with si := sc.si + 1 }
  | some .get => { sc with si := sc.si + 1 }
  | some (.putRetry _) => if ok then { sc with si := sc.si + 1 } else sc
  | some .getRetry => if ok then { sc with si := sc.si + 1 } else sc

/-- The script from its beginning: a reset discards the agent's place (70_reset_and_hazards R121; log 13). -/
def Script.restart (sc : Script) : Script :=
  { sc with si := 0 }

/-- Who acts in a step of a schedule: the agents (40_fifo_ops R66, 42_cdc R90), or the host asserting `rst` between their steps
(70_reset_and_hazards R111). -/
inductive Turn where
  | both
  | p
  | c
  | sh
  | st
  | rst
deriving DecidableEq, Repr

/-- A run driven by two scripts. -/
structure Bench where
  run : Run
  p : Script
  c : Script
deriving DecidableEq, Repr

/-- A program at the start of a run: both script indexes 0, the block at reset (30_encoding R61, 70_reset_and_hazards R114). -/
def Bench.begin (cfg : Cfg) (prog : Program) : Bench :=
  { run := Run.begin cfg, p := { cmds := prog.p, si := 0 }, c := { cmds := prog.c, si := 0 } }

/-- The event of a turn: the scripts' present words, which a reset ignores (70_reset_and_hazards R111). -/
def Bench.event (b : Bench) : Turn → Event
  | .both => .cycle b.p.word b.c.word
  | .p => .stepP b.p.word
  | .c => .stepC b.c.word
  | .sh => .stepSH
  | .st => .stepST
  | .rst => .rst b.p.word b.c.word

/-- A script after a turn: back at its beginning after a reset; advanced by the response `ok` if its agent acted. -/
def Script.afterEvent (wasReset acted ok : Bool) (sc : Script) : Script :=
  if wasReset then sc.restart else if acted then sc.advance ok else sc

/-- One turn: the block steps, the script of each port that acted advances by its response, and a reset takes both scripts back
to their beginning. -/
def Bench.turn (who : Turn) (b : Bench) : Host.Outcome Bench Fault Refusal :=
  match Run.present (b.event who) b.run with
  | .next r =>
    .next
      { run := r
        p := b.p.afterEvent (b.event who).isReset (b.event who).actsP r.state.out.pOk
        c := b.c.afterEvent (b.event who).isReset (b.event who).actsC r.state.out.cOk }
  | .fault f => .fault f
  | .refused f => .refused f

/-- The turns of a schedule, in order, stopping at the first fault or refusal. -/
def Bench.play : List Turn → Bench → Host.Outcome Bench Fault Refusal
  | [], b => .next b
  | who :: rest, b =>
    match Bench.turn who b with
    | .next b' => Bench.play rest b'
    | .fault f => .fault f
    | .refused f => .refused f

/-- Whether the host may end the run here and call it successful: both scripts have ended and nothing else is presented
(70_reset_and_hazards R115, R116). -/
def Bench.endsSuccessfully (b : Bench) : Bool :=
  b.run.endsSuccessfully && b.p.ended && b.c.ended

end Sys2Proof.Machine
end

