-- ==== Sys2Proof/Safety.lean ====
section
/-!
DEFINITION. What claims about the block are stated in: the well-formed states (10_state R20, R21, R25), the live slots (R23), the
ghost history that the laws of the spec speak of (10_state R33, 42_cdc R91; no step reads it), the executions from reset, and the
runs of a list of events.
-/

namespace Sys2Proof.Machine

open Sys2Proof

/-- A chain is well formed: SYNC_STAGES stages of PTR_W-bit gray codes of pointers below CAPACITY with CDC, no stage without
(10_state R20, R25). -/
def chainWf (cfg : Cfg) (chain : List Nat) : Bool :=
  decide (chain.length = cfg.stages)
    && chain.all fun g => decide (g < 2 ^ cfg.ptrW) && decide (gray2bin cfg.ptrW g < cfg.capacity)

/-- A well-formed state: both cursors below CAPACITY, the slot storage canonical and inside `0 .. CAPACITY-1`, both chains well
formed (10_state R20, R21, R25). -/
def State.wf (s : State) : Bool :=
  decide (s.head < s.cfg.capacity) && decide (s.tail < s.cfg.capacity)
    && Memory.wf s.slots && s.slots.all (fun cell => decide (cell.1 < s.cfg.capacity))
    && chainWf s.cfg s.hsync && chainWf s.cfg s.tsync

/-- Slot `i` is live: `(i - head) mod CAPACITY < (tail - head) mod CAPACITY` (10_state R23). -/
def isLive (s : State) (i : Nat) : Bool :=
  decide (modDistance s.cfg.capacity i s.head < countTrue s)

/-- The command that port P presents in an event, if it acts. -/
def Event.pInstr : Event → Option Instr
  | .cycle pCmd _ => some (decode .p pCmd)
  | .stepP pCmd => some (decode .p pCmd)
  | .stepC _ => none
  | .stepSH => none
  | .stepST => none
  | .rst _ _ => none
  | .rstPart _ => none

/-- The command that port C presents in an event, if it acts. -/
def Event.cInstr : Event → Option Instr
  | .cycle _ cCmd => some (decode .c cCmd)
  | .stepP _ => none
  | .stepC cCmd => some (decode .c cCmd)
  | .stepSH => none
  | .stepST => none
  | .rst _ _ => none
  | .rstPart _ => none

/-- A step of an agent: every event but the host's resets. -/
def Event.isAgentStep : Event → Bool
  | .cycle _ _ => true
  | .stepP _ => true
  | .stepC _ => true
  | .stepSH => true
  | .stepST => true
  | .rst _ _ => false
  | .rstPart _ => false

/-- The event is a step that exists on the block's configuration: both ports in one step only without CDC, a synchroniser only
with it (40_fifo_ops R66, 10_state R25), and no partial reset (70_reset_and_hazards R112). -/
def Event.possible (cfg : Cfg) : Event → Bool
  | .cycle _ _ => !cfg.cdc
  | .stepP _ => true
  | .stepC _ => true
  | .stepSH => cfg.cdc
  | .stepST => cfg.cdc
  | .rst _ _ => true
  | .rstPart _ => false

/-- Each port that acts in the event presents a command legal on it (30_encoding R50). -/
def Event.commandsLegal (e : Event) : Bool :=
  e.pInstr.all Instr.wf && e.cInstr.all Instr.wf

/-- Ghost history since reset: the values of the successful PUTs and of the successful GETs, oldest first, and for each chain
stage the ghost counter of its sample (10_state R33, 42_cdc R91). `Np` and `Nc` are the lengths of `puts` and `gots`. -/
structure History where
  puts : List Elem
  gots : List Elem
  nh : List Nat
  nt : List Nat
deriving DecidableEq, Repr

/-- `Np`, the number of successful PUTs since reset (10_state R33). -/
def History.np (h : History) : Nat :=
  h.puts.length

/-- `Nc`, the number of successful GETs since reset (10_state R33). -/
def History.nc (h : History) : Nat :=
  h.gots.length

/-- The history right after reset: nothing put or got, every stage's counter 0. -/
def History.begin (cfg : Cfg) : History :=
  { puts := [], gots := [], nh := List.replicate cfg.stages 0, nt := List.replicate cfg.stages 0 }

/-- The element a step accepted on port P: the data of the word presented there, when `p_ok = 1`. -/
def acceptedElem (e : Event) (t : State) : List Elem :=
  match e.pInstr, t.out.pOk with
  | some (.put _ v), true => [v]
  | _, _ => []

/-- The element a step delivered on port C: `c_data`, when `c_ok = 1`. -/
def deliveredElem (t : State) : List Elem :=
  match t.out.cOk, t.out.cData with
  | true, some v => [v]
  | _, _ => []

/-- The history after a step for the event `e` (none: the environment had no event) ended in `t`. -/
def History.advance (e : Option Event) (t : State) (h : History) : History :=
  match e with
  | none => h
  | some e =>
    if e.isReset then History.begin t.cfg
    else
      { puts := h.puts ++ acceptedElem e t
        gots := h.gots ++ deliveredElem t
        nh := if e = .stepSH then (h.nc :: h.nh).take t.cfg.syncStages else h.nh
        nt := if e = .stepST then (h.np :: h.nt).take t.cfg.syncStages else h.nt }

/-- What the history says of the state: the cursors count it modulo CAPACITY, each stage holds the gray code of its counter, the
counters are in the order of 42_cdc R91, the values got are the first of the values put (40_fifo_ops R69), and each value put
and not yet got stands in its slot (10_state R33). -/
structure History.Holds (h : History) (s : State) : Prop where
  tail_eq : s.tail = h.np % s.cfg.capacity
  head_eq : s.head = h.nc % s.cfg.capacity
  hsync_eq : s.hsync = h.nh.map fun n => bin2gray (n % s.cfg.capacity)
  tsync_eq : s.tsync = h.nt.map fun n => bin2gray (n % s.cfg.capacity)
  nh_length : h.nh.length = s.cfg.stages
  nt_length : h.nt.length = s.cfg.stages
  nh_order : (h.nc :: h.nh).Pairwise fun newer older => older ≤ newer
  nt_order : (h.np :: h.nt).Pairwise fun newer older => older ≤ newer
  nc_le : h.nc ≤ h.nt.getLastD h.np
  np_le : h.np ≤ h.nh.getLastD h.nc + (s.cfg.capacity - 1)
  fifo : h.gots = h.puts.take h.nc
  resident : ∀ j, h.nc ≤ j → j < h.np → Memory.read s.slots (j % s.cfg.capacity) = h.puts[j]?

/-- The invariant of the block: well formed, and some history accounts for it. -/
def State.Inv (s : State) : Prop :=
  s.wf = true ∧ ∃ h : History, h.Holds s

/-- The executions from reset with their histories: every configuration, every sequence of events. -/
inductive Execution : History → State → Prop where
  | reset (cfg : Cfg) (es : List Event) : Execution (History.begin cfg) (setEnv es (State.resetOf cfg))
  | step {h : History} {s t : State} (before : Execution h s) (taken : step s = .next t) :
      Execution (h.advance s.env.head? t) t

/-- The steps of a list of events, one after the other. -/
def runEvents (es : List Event) (s : State) : Host.Outcome State Fault Refusal :=
  Host.Core.run Sys2Proof.core es.length (setEnv es s)

end Sys2Proof.Machine
end

