-- ==== Sys2Proof/Certificates/Slice0/Obligations.lean ====
section
/-!
DEFINITION. The statements about the block, each named for what it states. A hypothesis `s.fault = none` says that the block runs
(60_exceptions R105); `s.wf = true` and `s.Inv` are the invariants of Safety.lean, which `StepKeepsWellFormed`, `ResetIsWellFormed`,
`StepKeepsHistory` and `HistoryHoldsAtReset` state of every step and of reset.
-/

open Sys2Proof Sys2Proof.Machine

/-! ### Parameters, encoding, presenting a command -/

/-- 00_scope R8: PTR_W is `max(1, k)` for the least `k` with `2^k ≥ CAPACITY`, the rule's three examples, and every pointer below
CAPACITY fits. -/
def Obligations.PointerWidthIsLeastThatFits : Prop :=
  (∀ n : Nat, ∃ k : Nat, ptrWidth n = max 1 k ∧ n ≤ 2 ^ k ∧ (∀ j < k, 2 ^ j < n) ∧ n ≤ 2 ^ ptrWidth n) ∧
    ptrWidth 2 = 1 ∧ ptrWidth 4 = 2 ∧ ptrWidth 5 = 3

/-- 60_exceptions R97 to R99: when elaboration refuses, with which refusal, in which order; else the block has exactly the chosen
parameters. -/
def Obligations.ElaborationRefusesInOrder : Prop :=
  ∀ (capacity : Nat) (cdc : Bool) (syncStages : Nat),
    (capacity < 2 → elaborate capacity cdc syncStages = .refused (.config .capacity)) ∧
    (2 ≤ capacity → cdc = true → (¬ ∃ k, capacity = 2 ^ k) →
      elaborate capacity cdc syncStages = .refused (.config .cdcCapacity)) ∧
    (2 ≤ capacity → cdc = true → (∃ k, capacity = 2 ^ k) → syncStages < 2 →
      elaborate capacity cdc syncStages = .refused (.config .syncStages)) ∧
    (2 ≤ capacity → (cdc = true → (∃ k, capacity = 2 ^ k) ∧ 2 ≤ syncStages) →
      ∃ cfg : Cfg, elaborate capacity cdc syncStages = .next cfg ∧ cfg.capacity = capacity ∧ cfg.cdc = cdc ∧
        cfg.syncStages = syncStages)

/-- 30_encoding R55: what each of the four `op` values decodes to on a port, whatever the data bits, and which of these verdicts are
illegal and why. -/
def Obligations.DecodeFollowsTheOpcodeMap : Prop :=
  ∀ (q : Port) (d : Elem),
    (decode q (0b00#2 ++ d) = .nop q ∧ (Instr.nop q).verdict = none) ∧
    (decode q (0b01#2 ++ d) = .put q d ∧ (Instr.put .p d).verdict = none ∧
      (Instr.put .c d).verdict = some .portRole) ∧
    (decode q (0b10#2 ++ d) = .get q ∧ (Instr.get .c).verdict = none ∧
      (Instr.get .p).verdict = some .portRole) ∧
    (decode q (0b11#2 ++ d) = .reservedOp11 q ∧ (Instr.reservedOp11 q).verdict = some .illegalOp)

/-- 95_test_vectors, 2.2: the fourteen entries of its table: what each word decodes to on port P and on port C, and which of them
are illegal and why. -/
def Obligations.SpecWordsDecodeAsListed : Prop :=
  (decode .p 0x000000000#34 = .nop .p ∧ (Instr.nop .p).verdict = none) ∧
    (decode .c 0x000000000#34 = .nop .c ∧ (Instr.nop .c).verdict = none) ∧
    (decode .p 0x0DEADBEEF#34 = .nop .p ∧ decode .c 0x0DEADBEEF#34 = .nop .c) ∧
    (decode .p 0x100000005#34 = .put .p 5#32 ∧ (Instr.put .p 5#32).verdict = none) ∧
    (decode .c 0x100000005#34).verdict = some .portRole ∧
    (decode .p 0x1FFFFFFFF#34 = .put .p 0xFFFFFFFF#32 ∧ (0xFFFFFFFF#32 : Elem).toInt = -1 ∧
      (Instr.put .p 0xFFFFFFFF#32).verdict = none) ∧
    (decode .c 0x1FFFFFFFF#34).verdict = some .portRole ∧
    (decode .p 0x200000000#34).verdict = some .portRole ∧
    (decode .c 0x200000000#34 = .get .c ∧ (Instr.get .c).verdict = none) ∧
    (decode .p 0x212345678#34).verdict = some .portRole ∧
    decode .c 0x212345678#34 = .get .c ∧
    (decode .p 0x300000000#34).verdict = some .illegalOp ∧ (decode .c 0x300000000#34).verdict = some .illegalOp

/-- 30_encoding R49, R51, R52, R55: every command is read back from its word; and a word is read as a command exactly when the port
and the `op` agree and, for PUT alone, the data field is the element. So no data bit of PUT is dropped and no other data bit
matters. -/
def Obligations.DecodeAndEncodeAgree : Prop :=
  (∀ i : Instr, decode i.port (encode i) = i) ∧
    ∀ (q : Port) (w : CmdWord) (i : Instr),
      decode q w = i ↔ i.port = q ∧ opField w = i.op ∧ ∀ (q' : Port) (v : Elem), i = .put q' v → dataField w = v

/-- 30_encoding R50, R53, R54: a command is legal on its port exactly when decoding finds no fault in it. -/
def Obligations.LegalCommandsHaveNoVerdict : Prop :=
  ∀ i : Instr, i.wf = true ↔ i.verdict = none

/-- Logs 5 and 14: a table word placed by `withFetchWord` is the command the very next step runs, on the block as it was. -/
def Obligations.PlacedWordRunsInTheNextStep : Prop :=
  ∀ (s : State) (nbits w : Nat) (i : Instr),
    decodeTableWord nbits w = some i → step (s.withFetchWord nbits w) = exec i s

/-- 40_fifo_ops R66, R68, 30_encoding R61: a step of one port runs the command decoded from the word it presents; so does a cycle
in which the other port presents NOP; and once the environment has nothing left a step is a NOP. -/
def Obligations.StepRunsTheDecodedCommand : Prop :=
  ∀ (s : State) (w nop : CmdWord) (rest : List Event), opField nop = 0b00#2 →
    (s.env = .stepP w :: rest → step s = exec (decode .p w) { s with env := rest }) ∧
    (s.env = .stepC w :: rest → step s = exec (decode .c w) { s with env := rest }) ∧
    (s.cfg.cdc = false → s.env = .cycle w nop :: rest → step s = exec (decode .p w) { s with env := rest }) ∧
    (s.cfg.cdc = false → s.env = .cycle nop w :: rest → step s = exec (decode .c w) { s with env := rest }) ∧
    (s.env = [] → step s = exec (.nop .p) s ∧ step s = exec (.nop .c) s)

/-! ### The commands -/

/-- 40_fifo_ops R63: NOP on either port completes, responds 0 and writes no state. -/
def Obligations.NopCompletesAndWritesNothing : Prop :=
  ∀ (q : Port) (s : State), s.fault = none → exec (.nop q) s = .next { s with out := Resp.quiet }

/-- 40_fifo_ops R64: PUT on port P. `next_tail` is compared with the producer's view; full leaves the state as it is with
`p_ok = 0`; otherwise slot `tail` holds the element, every other slot is as before, `tail` is `next_tail` and `p_ok = 1`. On port C
it raises PORT_ROLE. -/
def Obligations.PutStoresOrReportsFull : Prop :=
  ∀ (v : Elem) (s : State), s.fault = none →
    (s.tail < s.cfg.capacity →
      ∃ t : State, exec (.put .p v) s = .next t ∧
        ((s.tail + 1) % s.cfg.capacity = hview s → t = { s with out := { pOk := false, cOk := false, cData := none } }) ∧
        ((s.tail + 1) % s.cfg.capacity ≠ hview s →
          t = { s with
                slots := t.slots
                tail := (s.tail + 1) % s.cfg.capacity
                out := { pOk := true, cOk := false, cData := none } } ∧
          ∀ i, Memory.read t.slots i = if i = s.tail then some v else Memory.read s.slots i)) ∧
    exec (.put .c v) s =
      .next { s with fault := some (.portRole, .c), out := { pOk := false, cOk := false, cData := none } }

/-- 40_fifo_ops R65: GET on port C. `head` is compared with the consumer's view; empty leaves the state as it is with `c_ok = 0` and
no data; an unwritten slot raises UNWRITTEN_SLOT; otherwise the element of slot `head` is the data, `head` advances, the slot keeps
its value. On port P it raises PORT_ROLE. -/
def Obligations.GetTakesOrReportsEmpty : Prop :=
  ∀ s : State, s.fault = none →
    (s.head < s.cfg.capacity →
      (s.head = tview s →
        exec (.get .c) s = .next { s with out := { pOk := false, cOk := false, cData := none } }) ∧
      (s.head ≠ tview s → Memory.read s.slots s.head = none →
        exec (.get .c) s =
          .next { s with fault := some (.unwrittenSlot, .c), out := { pOk := false, cOk := false, cData := none } }) ∧
      (s.head ≠ tview s → ∀ v, Memory.read s.slots s.head = some v →
        exec (.get .c) s =
          .next { s with
                  head := (s.head + 1) % s.cfg.capacity
                  out := { pOk := false, cOk := true, cData := some v } })) ∧
    exec (.get .p) s =
      .next { s with fault := some (.portRole, .p), out := { pOk := false, cOk := false, cData := none } }

/-- 60_exceptions R100: the reserved command completes by recording `(0x1, q)` and nothing else, and so does a step in which port `q`
presents a word with op = 11, whatever its data bits. -/
def Obligations.ReservedWordRaisesIllegalOp : Prop :=
  ∀ (q : Port) (s : State), s.fault = none →
    exec (.reservedOp11 q) s =
        .next { s with fault := some (.illegalOp, q), out := { pOk := false, cOk := false, cData := none } } ∧
      ∀ (w : CmdWord) (rest : List Event), opField w = 0b11#2 → s.env = presentOn q w :: rest →
        step s =
          .next { s with
                  env := rest
                  fault := some (.illegalOp, q)
                  out := { pOk := false, cOk := false, cData := none } }

/-- 60_exceptions R101, 30_encoding R54: a step in which port C presents a PUT word or port P a GET word records `(0x2, q)` and has no
other effect. -/
def Obligations.WrongPortRaisesPortRole : Prop :=
  ∀ (w : CmdWord) (s : State) (rest : List Event), s.fault = none →
    (opField w = 0b01#2 → s.env = .stepC w :: rest →
      step s =
        .next { s with
                env := rest
                fault := some (.portRole, .c)
                out := { pOk := false, cOk := false, cData := none } }) ∧
    (opField w = 0b10#2 → s.env = .stepP w :: rest →
      step s =
        .next { s with
                env := rest
                fault := some (.portRole, .p)
                out := { pOk := false, cOk := false, cData := none } })

/-- 60_exceptions R102: a GET whose empty test passes on an unwritten slot records `(0x3, C)`; no execution from reset records it. -/
def Obligations.UnwrittenSlotFaultsAndIsUnreachable : Prop :=
  (∀ s : State, s.fault = none → s.head < s.cfg.capacity → cEmpty s = false →
      Memory.read s.slots s.head = none →
      exec (.get .c) s =
        .next { s with fault := some (.unwrittenSlot, .c), out := { pOk := false, cOk := false, cData := none } }) ∧
    ∀ (h : History) (s : State) (q : Port), Execution h s → s.fault ≠ some (.unwrittenSlot, q)

/-- Logs 9 and 11 (the model's choices): the stops that are no fault of the spec. A PUT or GET that would access a slot number that
does not exist stops by name; a cycle of both ports on a block with CDC and a synchroniser step on a block without it are refused by
name. -/
def Obligations.ImpossibleStepsStopByName : Prop :=
  ∀ (s : State) (v : Elem) (pCmd cCmd : CmdWord) (rest : List Event),
    (s.fault = none → s.cfg.capacity ≤ s.tail → pFull s = false →
      exec (.put .p v) s = .fault .slotOutOfRange) ∧
    (s.fault = none → s.cfg.capacity ≤ s.head → cEmpty s = false →
      exec (.get .c) s = .fault .slotOutOfRange) ∧
    (s.cfg.cdc = true → s.env = .cycle pCmd cCmd :: rest → step s = .refused .noCommonClock) ∧
    (s.cfg.cdc = false → s.env = .stepSH :: rest → step s = .refused .noSynchroniser) ∧
    (s.cfg.cdc = false → s.env = .stepST :: rest → step s = .refused .noSynchroniser)

/-! ### Frames -/

/-- The frame of NOP and of the reserved word on either port: only the fault register (and that only by the reserved word) and the
responses may change; every slot reads as before. -/
def Obligations.NopAndReservedFrame : Prop :=
  ∀ (q : Port) (i : Instr) (s t : State), i = .nop q ∨ i = .reservedOp11 q → exec i s = .next t →
    t.cfg = s.cfg ∧ t.head = s.head ∧ t.tail = s.tail ∧ t.hsync = s.hsync ∧ t.tsync = s.tsync ∧ t.env = s.env ∧
      (i = .nop q → t.fault = s.fault) ∧ ∀ a, Memory.read t.slots a = Memory.read s.slots a

/-- The frame of PUT on either port: only `tail`, the slot it stores to, the fault register (and that only on port C) and the
responses may change. The slot stored to is slot `tail` of the state before, exactly when `p_ok = 1`. -/
def Obligations.PutFrame : Prop :=
  ∀ (q : Port) (v : Elem) (s t : State), exec (.put q v) s = .next t →
    t.cfg = s.cfg ∧ t.head = s.head ∧ t.hsync = s.hsync ∧ t.tsync = s.tsync ∧ t.env = s.env ∧
      (q = .p → t.fault = s.fault) ∧ (t.out.pOk = false → t.tail = s.tail) ∧
      (q = .c → t.out.pOk = false) ∧
      (∀ a, (if t.out.pOk then some s.tail else none) = some a →
        ∀ b, b ≠ a → Memory.read t.slots b = Memory.read s.slots b) ∧
      (t.out.pOk = false → ∀ b, Memory.read t.slots b = Memory.read s.slots b)

/-- The frame of GET on either port: only `head`, the fault register and the responses may change; every slot reads as before. -/
def Obligations.GetFrame : Prop :=
  ∀ (q : Port) (s t : State), exec (.get q) s = .next t →
    t.cfg = s.cfg ∧ t.tail = s.tail ∧ t.hsync = s.hsync ∧ t.tsync = s.tsync ∧ t.env = s.env ∧
      (t.out.cOk = false → t.head = s.head) ∧ (t.out.cOk = true → t.fault = s.fault) ∧
      (cEmpty s = true → q = .c → t.fault = s.fault) ∧
      ∀ a, Memory.read t.slots a = Memory.read s.slots a

/-- 10_state R18, R19: in every step but a reset, `head` moves only by a GET of port C that succeeds, `tail` only by a PUT of port P
that succeeds, and each only to its increment. -/
def Obligations.EachCursorHasOneWriter : Prop :=
  ∀ s t : State, step s = .next t → (∀ e, s.env.head? = some e → e.isReset = false) →
    ((t.out.cOk = false → t.head = s.head) ∧
      (t.out.cOk = true → t.head = inc s.cfg.capacity s.head ∧
        ∃ e, s.env.head? = some e ∧ e.cInstr = some (.get .c))) ∧
    ((t.out.pOk = false → t.tail = s.tail) ∧
      (t.out.pOk = true → t.tail = inc s.cfg.capacity s.tail ∧
        ∃ e v, s.env.head? = some e ∧ e.pInstr = some (.put .p v)))

/-- 00_scope R6, 10_state R29: no step changes an elaboration parameter. -/
def Obligations.StepNeverChangesParameters : Prop :=
  ∀ s t : State, step s = .next t → t.cfg = s.cfg

/-! ### Comparator, arbiter and views -/

/-- 41_status R72: the increment is `(p + 1) mod CAPACITY`, stays below CAPACITY, fits PTR_W bits, is the PTR_W-bit wrapping
increment when CAPACITY is `2^PTR_W`, and `inc(4) = 0` for CAPACITY = 5. -/
def Obligations.IncrementIsModular : Prop :=
  (∀ (cfg : Cfg) (p : Nat), p < cfg.capacity →
      inc cfg.capacity p = (p + 1) % cfg.capacity ∧ inc cfg.capacity p < cfg.capacity ∧
        inc cfg.capacity p < 2 ^ cfg.ptrW ∧
        (cfg.capacity = 2 ^ cfg.ptrW →
          inc cfg.capacity p = (BitVec.ofNat cfg.ptrW p + 1#cfg.ptrW).toNat)) ∧
    inc 5 4 = 0

/-- 10_state R24: with CDC each view is the gray decoding of stage SYNC_STAGES, which exists; without CDC it is the live cursor; the
full decision reads `hview` and `tail`, the empty decision `tview` and `head`. -/
def Obligations.ViewsFollowTheConfiguration : Prop :=
  ∀ s : State, s.wf = true →
    (s.cfg.cdc = false → hview s = s.head ∧ tview s = s.tail) ∧
    (s.cfg.cdc = true → ∃ g g', s.hsync[s.cfg.syncStages - 1]? = some g ∧ s.tsync[s.cfg.syncStages - 1]? = some g' ∧
      hview s = gray2bin s.cfg.ptrW g ∧ tview s = gray2bin s.cfg.ptrW g') ∧
    (pFull s = true ↔ inc s.cfg.capacity s.tail = hview s) ∧ (cEmpty s = true ↔ s.head = tview s)

/-- 41_status R74, R75: `c_empty` and `p_full` are the pointer equalities, and exactly the conditions under which GET on C and PUT
on P fail. -/
def Obligations.StatusIsTheFailureCondition : Prop :=
  ∀ (s : State) (v : Elem), s.wf = true → s.fault = none →
    (cEmpty s = true ↔ s.head = tview s) ∧
    (cEmpty s = true → exec (.get .c) s = .next { s with out := Resp.quiet }) ∧
    (cEmpty s = false → ∃ t, exec (.get .c) s = .next t ∧ (t.out.cOk = true ∨ t.fault = some (.unwrittenSlot, .c))) ∧
    (pFull s = true ↔ inc s.cfg.capacity s.tail = hview s) ∧
    (pFull s = true → exec (.put .p v) s = .next { s with out := Resp.quiet }) ∧
    (pFull s = false → ∃ t, exec (.put .p v) s = .next t ∧ t.out.pOk = true)

/-- 41_status R76: both counts are the modular differences, lie in `[0, CAPACITY - 1]`, fit PTR_W bits, agree without CDC, and are
what the hardware realisation of the rule computes. -/
def Obligations.CountsAreModularDifferences : Prop :=
  ∀ s : State, s.wf = true →
    ((pCount s : Int) = ((s.tail : Int) - hview s + s.cfg.capacity) % s.cfg.capacity) ∧
    ((cCount s : Int) = ((tview s : Int) - s.head + s.cfg.capacity) % s.cfg.capacity) ∧
    pCount s ≤ s.cfg.capacity - 1 ∧ cCount s ≤ s.cfg.capacity - 1 ∧
    pCount s < 2 ^ s.cfg.ptrW ∧ cCount s < 2 ^ s.cfg.ptrW ∧
    pCount s = (if hview s ≤ s.tail then s.tail - hview s else s.tail + s.cfg.capacity - hview s) ∧
    cCount s = (if s.head ≤ tview s then tview s - s.head else tview s + s.cfg.capacity - s.head) ∧
    (s.cfg.cdc = false → pCount s = cCount s ∧
      (pCount s : Int) = ((s.tail : Int) - s.head + s.cfg.capacity) % s.cfg.capacity)

/-- 41_status R77: without CDC every well-formed state is exactly one of empty with count 0, full with count CAPACITY - 1, or
neither; with CAPACITY = 2 it is empty or full; with CDC some state from reset has both outputs 1. -/
def Obligations.EmptyAndFullExcludeEachOther : Prop :=
  (∀ s : State, s.wf = true → s.cfg.cdc = false →
      ¬(cEmpty s = true ∧ pFull s = true) ∧
      (cEmpty s = true ↔ cCount s = 0) ∧ (pFull s = true ↔ pCount s = s.cfg.capacity - 1) ∧
      (s.cfg.capacity = 2 → cEmpty s = true ∨ pFull s = true)) ∧
    ∃ (h : History) (s : State), Execution h s ∧ s.cfg.cdc = true ∧ cEmpty s = true ∧ pFull s = true

/-- 41_status R79: the true occupancy is `Np - Nc` and the modular difference of the cursors, and without CDC the outputs are the
true status. -/
def Obligations.StatusIsTrueWithoutCdc : Prop :=
  ∀ (h : History) (s : State), s.wf = true → h.Holds s →
    countTrue s = h.np - h.nc ∧
    ((countTrue s : Int) = ((s.tail : Int) - s.head + s.cfg.capacity) % s.cfg.capacity) ∧
    (emptyTrue s = true ↔ countTrue s = 0) ∧ (fullTrue s = true ↔ countTrue s = s.cfg.capacity - 1) ∧
    (s.cfg.cdc = false →
      cEmpty s = emptyTrue s ∧ pFull s = fullTrue s ∧ pCount s = countTrue s ∧ cCount s = countTrue s)

/-- 41_status R80: the observed counts bracket the true one, and the levels are the extreme counts. -/
def Obligations.CountsBracketTheTrueCount : Prop :=
  ∀ s : State, s.Inv →
    cCount s ≤ countTrue s ∧ countTrue s ≤ pCount s ∧ pCount s ≤ s.cfg.capacity - 1 ∧
    (s.cfg.cdc = false → cCount s = countTrue s ∧ pCount s = countTrue s) ∧
    (pFull s = true ↔ pCount s = s.cfg.capacity - 1) ∧ (cEmpty s = true ↔ cCount s = 0)

/-! ### Gray code and the crossing -/

/-- 42_cdc R83: the gray code is `b xor (b >> 1)`, so its top bit is that of `b` and each lower bit is the xor of two neighbouring
bits. -/
def Obligations.GrayCodeBits : Prop :=
  ∀ (w b : Nat), b < 2 ^ (w + 1) →
    bin2gray b = b ^^^ (b >>> 1) ∧ (bin2gray b).testBit w = b.testBit w ∧
      (∀ i < w, (bin2gray b).testBit i = (b.testBit (i + 1) ^^ b.testBit i)) ∧ bin2gray b < 2 ^ (w + 1)

/-- 42_cdc R84: gray decoding bit by bit from the top, and that encoding and decoding are inverse bijections on PTR_W-bit values. -/
def Obligations.GrayDecodingInvertsEncoding : Prop :=
  ∀ (w g : Nat), g < 2 ^ (w + 1) →
    (gray2bin (w + 1) g).testBit w = g.testBit w ∧
      (∀ i < w, (gray2bin (w + 1) g).testBit i = ((gray2bin (w + 1) g).testBit (i + 1) ^^ g.testBit i)) ∧
      gray2bin (w + 1) g < 2 ^ (w + 1) ∧ bin2gray (gray2bin (w + 1) g) = g ∧
      bin2gray g < 2 ^ (w + 1) ∧ gray2bin (w + 1) (bin2gray g) = g

/-- 42_cdc R85: for CAPACITY = `2^w` a pointer's gray code and that of its increment differ in exactly one bit, the wrap included,
whose codes are `10…0` and `0…0`; for CAPACITY = 5 the wrap changes two. -/
def Obligations.GrayChangesOneBitPerIncrement : Prop :=
  (∀ (w p : Nat), 1 ≤ w → p < 2 ^ w →
      (∃ i < w, ∀ j, (bin2gray p).testBit j ≠ (bin2gray (inc (2 ^ w) p)).testBit j ↔ j = i) ∧
      bin2gray (2 ^ w - 1) = 2 ^ (w - 1) ∧ bin2gray 0 = 0) ∧
    bin2gray 4 = 0b110 ∧ bin2gray (inc 5 4) = 0b000

/-- 42_cdc R86, R87: a step of SH and a step of ST complete on a running block with CDC; stage 1 takes the gray code of the cursor,
stage `k` the old stage `k - 1`, and nothing else changes. -/
def Obligations.SynchroniserStepsShift : Prop :=
  ∀ (s : State) (rest : List Event), s.wf = true → s.cfg.cdc = true → s.fault = none →
    (s.env = .stepSH :: rest →
      ∃ t, step s = .next t ∧ t = { s with env := rest, hsync := t.hsync, out := Resp.quiet } ∧
        t.hsync.length = s.cfg.syncStages ∧ t.hsync[0]? = some (bin2gray s.head) ∧
        ∀ k, k + 1 < s.cfg.syncStages → t.hsync[k + 1]? = s.hsync[k]?) ∧
    (s.env = .stepST :: rest →
      ∃ t, step s = .next t ∧ t = { s with env := rest, tsync := t.tsync, out := Resp.quiet } ∧
        t.tsync.length = s.cfg.syncStages ∧ t.tsync[0]? = some (bin2gray s.tail) ∧
        ∀ k, k + 1 < s.cfg.syncStages → t.tsync[k + 1]? = s.tsync[k]?)

/-- 42_cdc R89: on a clock edge of one domain, doing the port's command and the synchroniser's shift at once gives what the port's
step and then the synchroniser's step give. -/
def Obligations.ClockEdgeIsCommandThenShift : Prop :=
  ∀ (i : Instr) (s t : State), s.cfg.cdc = true → exec i s = .next t → t.fault = none →
    (i.port = .p → ∃ u, stepSH t = .next u ∧ edgeClkP i s = .next { u with out := t.out }) ∧
    (i.port = .c → ∃ u, stepST t = .next u ∧ edgeClkC i s = .next { u with out := t.out })

/-- 42_cdc R92: full and empty are conservative, a PUT never overfills and a GET never reads an empty slot; and spurious full and
spurious empty do occur from reset. -/
def Obligations.StatusIsConservative : Prop :=
  (∀ s : State, s.Inv →
      (fullTrue s = true → pFull s = true) ∧ (emptyTrue s = true → cEmpty s = true)) ∧
    (∃ (h : History) (s : State), Execution h s ∧ pFull s = true ∧ fullTrue s = false) ∧
    (∃ (h : History) (s : State), Execution h s ∧ cEmpty s = true ∧ emptyTrue s = false) ∧
    (∃ (h : History) (s : State), Execution h s ∧ cEmpty s = true ∧ pFull s = true)

/-- 42_cdc R93: if port C presents no GET while SH steps SYNC_STAGES times, the producer's view is then `head`, whatever else steps
in between; and symmetrically for ST and port P's PUT. -/
def Obligations.ViewsCatchUpAfterSyncStages : Prop :=
  ∀ (es : List Event) (s t : State), s.wf = true → s.cfg.cdc = true → runEvents es s = .next t →
    (∀ e ∈ es, e.isReset = false) →
    ((∀ e ∈ es, e.cInstr ≠ some (.get .c)) → s.cfg.syncStages ≤ es.count .stepSH → hview t = t.head) ∧
    ((∀ e ∈ es, ∀ v, e.pInstr ≠ some (.put .p v)) → s.cfg.syncStages ≤ es.count .stepST → tview t = t.tail)

/-! ### Steps of both ports -/

/-- 40_fifo_ops R67: a cycle with a PUT on P and a GET on C on a block without CDC. Both are evaluated against the start of the step
and the writes merge; if both succeed, GET's slot is not PUT's. -/
def Obligations.SimultaneousPutAndGetMerge : Prop :=
  ∀ (s : State) (pCmd cCmd : CmdWord) (v : Elem) (rest : List Event), s.Inv → s.cfg.cdc = false → s.fault = none →
    s.env = .cycle pCmd cCmd :: rest → decode .p pCmd = .put .p v → decode .c cCmd = .get .c →
    ∃ t, step s = .next t ∧
      t = { s with
            env := rest
            tail := if inc s.cfg.capacity s.tail = s.head then s.tail else inc s.cfg.capacity s.tail
            slots := t.slots
            head := if s.head = s.tail then s.head else inc s.cfg.capacity s.head
            out :=
              { pOk := inc s.cfg.capacity s.tail != s.head
                cOk := s.head != s.tail
                cData := if s.head = s.tail then none else Memory.read s.slots s.head } } ∧
      (∀ i, Memory.read t.slots i =
        if inc s.cfg.capacity s.tail ≠ s.head ∧ i = s.tail then some v else Memory.read s.slots i) ∧
      (t.out.pOk = true → t.out.cOk = true → s.head ≠ s.tail)

/-- 40_fifo_ops R68: a cycle with a PUT and a GET ends as the two commands one after the other: GET first unless the block is full,
PUT first unless it is empty; the responses are those of the two single steps. -/
def Obligations.SimultaneousStepEqualsASerialOne : Prop :=
  ∀ (s : State) (pCmd cCmd : CmdWord) (v : Elem) (rest : List Event), s.Inv → s.cfg.cdc = false → s.fault = none →
    s.env = .cycle pCmd cCmd :: rest → decode .p pCmd = .put .p v → decode .c cCmd = .get .c →
    ∃ t, step s = .next t ∧
      (pFull s = false → ∃ s₁ s₂, exec (.get .c) { s with env := rest } = .next s₁ ∧ exec (.put .p v) s₁ = .next s₂ ∧
        t = { s₂ with out := { pOk := s₂.out.pOk, cOk := s₁.out.cOk, cData := s₁.out.cData } }) ∧
      (cEmpty s = false → ∃ s₁ s₂, exec (.put .p v) { s with env := rest } = .next s₁ ∧ exec (.get .c) s₁ = .next s₂ ∧
        t = { s₂ with out := { pOk := s₁.out.pOk, cOk := s₂.out.cOk, cData := s₂.out.cData } })

/-! ### Faults and reset -/

/-- 60_exceptions R103: a step that records a fault changes nothing else, and its responses are quiet. -/
def Obligations.FaultEntryIsPrecise : Prop :=
  ∀ s t : State, step s = .next t → s.fault = none → t.fault ≠ none →
    ∃ e rest, s.env = e :: rest ∧
      t = { s with env := rest, fault := t.fault, out := { pOk := false, cOk := false, cData := none } }

/-- 60_exceptions R104: which fault a cycle of both ports records: a decoding fault of P, else a decoding fault of C, else C's
UNWRITTEN_SLOT; the reserved word's fault comes before the wrong port's on its port. -/
def Obligations.FaultPriority : Prop :=
  ∀ (s : State) (pCmd cCmd : CmdWord) (rest : List Event), s.wf = true → s.cfg.cdc = false → s.fault = none →
    s.env = .cycle pCmd cCmd :: rest →
    (∀ code, (decode .p pCmd).verdict = some code →
      step s = .next { s with env := rest, fault := some (code, .p), out := Resp.quiet }) ∧
    (∀ code, (decode .p pCmd).verdict = none → (decode .c cCmd).verdict = some code →
      step s = .next { s with env := rest, fault := some (code, .c), out := Resp.quiet }) ∧
    ((decode .p pCmd).verdict = none → decode .c cCmd = .get .c → cEmpty s = false →
      Memory.read s.slots s.head = none →
      step s = .next { s with env := rest, fault := some (.unwrittenSlot, .c), out := Resp.quiet }) ∧
    (∀ q w, opField w = 0b11#2 → (decode q w).verdict = some .illegalOp)

/-- 60_exceptions R105: a faulted block takes no step of any agent, an idle one neither; the only next state is that of a reset, and
it holds no fault. -/
def Obligations.FaultedBlockTakesNoStepUntilReset : Prop :=
  ∀ (s : State) (code : FaultCode) (q : Port), s.fault = some (code, q) →
    (∀ e rest, s.env = e :: rest → e.isAgentStep = true → e.possible s.cfg = true →
      step s = .fault (.blockFaulted code q)) ∧
    (s.env = [] → step s = .fault (.blockFaulted code q)) ∧
    (∀ pCmd cCmd rest, s.env = .rst pCmd cCmd :: rest → ∃ t, step s = .next t ∧ t.fault = none) ∧
    (∀ t, step s = .next t → ∃ pCmd cCmd rest, s.env = .rst pCmd cCmd :: rest)

/-- 10_state R26, 93 I6: the fault outputs show the register, reading them gives it back, and a reserved code is refused. -/
def Obligations.FaultOutputsShowTheRegister : Prop :=
  (∀ s : State, s.fault = none → faultCodeOut s = 0x0#4 ∧ faultPortOut s = 0#1) ∧
    (∀ (s : State) (q : Port), s.fault = some (.illegalOp, q) → faultCodeOut s = 0x1#4) ∧
    (∀ (s : State) (q : Port), s.fault = some (.portRole, q) → faultCodeOut s = 0x2#4) ∧
    (∀ (s : State) (q : Port), s.fault = some (.unwrittenSlot, q) → faultCodeOut s = 0x3#4) ∧
    (∀ (s : State) (code : FaultCode), s.fault = some (code, .p) → faultPortOut s = 0#1) ∧
    (∀ (s : State) (code : FaultCode), s.fault = some (code, .c) → faultPortOut s = 1#1) ∧
    (∀ s : State, readFaultOutputs (faultCodeOut s) (faultPortOut s) = .next s.fault) ∧
    ∀ (code : BitVec 4) (port : BitVec 1), 0x4#4 ≤ code → readFaultOutputs code port = .refused .reservedFaultCode

/-- 10_state R32: the values reset leaves, for every configuration, and that `State.reset` is this state for its configuration. -/
def Obligations.ResetValues : Prop :=
  State.reset = State.resetOf State.reset.cfg ∧
    ∀ cfg : Cfg,
      (State.resetOf cfg).cfg = cfg ∧ (State.resetOf cfg).head = 0 ∧ (State.resetOf cfg).tail = 0 ∧
      (∀ i, Memory.read (State.resetOf cfg).slots i = none) ∧ (State.resetOf cfg).fault = none ∧
      (cfg.cdc = true →
        (State.resetOf cfg).hsync = List.replicate cfg.syncStages 0 ∧
        (State.resetOf cfg).tsync = List.replicate cfg.syncStages 0) ∧
      (cfg.cdc = false → (State.resetOf cfg).hsync = [] ∧ (State.resetOf cfg).tsync = []) ∧
      (State.resetOf cfg).out.pOk = false ∧ (State.resetOf cfg).out.cOk = false ∧
      (State.resetOf cfg).out.cData = none

/-- 70_reset_and_hazards R110, R111: in a step where `rst` is asserted, from any state, faulted ones too, and whatever words the
ports present, every piece of state takes its reset value and no command is performed; the block is then empty and not full. No
other step clears a fault. -/
def Obligations.ResetStepRestoresEverything : Prop :=
  (∀ (s : State) (pCmd cCmd : CmdWord) (rest : List Event), s.env = .rst pCmd cCmd :: rest →
    ∃ t, step s = .next t ∧ t = { State.resetOf s.cfg with env := t.env } ∧
      t.out.pOk = false ∧ t.out.cOk = false ∧
      cEmpty t = true ∧ pFull t = false ∧ cCount t = 0 ∧ pCount t = 0) ∧
    ∀ s t : State, step s = .next t → s.fault ≠ none → t.fault = none →
      ∃ pCmd cCmd rest, s.env = .rst pCmd cCmd :: rest

/-- 70_reset_and_hazards R112: resetting one domain or one part alone is refused: as a step, as a host action, and presented to a
block at any time after its construction. -/
def Obligations.PartialResetIsRefused : Prop :=
  ∀ (part : ResetPart) (s : State) (rest : List Event) (life : Life),
    (s.env = .rstPart part :: rest → step s = .refused .partialReset) ∧
    hostStep (.resetPart part) life = .refused .partialReset ∧
    (life ≠ .unbuilt → hostStep (.present (.rstPart part)) life = .refused .partialReset)

/-- 70_reset_and_hazards R111, R113, R114, R116 and 00_scope R6: construction, then reset, then commands. On a constructed block a
step of an agent before the first reset is refused; the host's reset, and `rst` asserted while the ports present any words, give the
reset state and a new run, the first time and every later time; a running block performs what is presented. That a reset or a
command before construction is refused as `notConstructed` and a second construction as `parametersFixed` is the model's choice of
refusals (log 19). -/
def Obligations.LifecycleOrder : Prop :=
  ∀ (capacity : Nat) (cdc : Bool) (syncStages : Nat) (cfg : Cfg) (e : Event) (pCmd cCmd : CmdWord) (r : Run),
    (elaborate capacity cdc syncStages = .next cfg →
      hostStep (.construct capacity cdc syncStages) .unbuilt = .next (.built cfg)) ∧
    (∀ why, elaborate capacity cdc syncStages = .refused why →
      hostStep (.construct capacity cdc syncStages) .unbuilt = .refused why) ∧
    hostStep .reset .unbuilt = .refused .notConstructed ∧
    hostStep (.present e) .unbuilt = .refused .notConstructed ∧
    (e.isAgentStep = true → hostStep (.present e) (.built cfg) = .refused .beforeFirstReset) ∧
    hostStep .reset (.built cfg) =
      .next (.running { state := State.resetOf cfg, pResponses := [], cResponses := [] }) ∧
    hostStep (.present (.rst pCmd cCmd)) (.built cfg) =
      .next (.running { state := State.resetOf cfg, pResponses := [], cResponses := [] }) ∧
    hostStep .reset (.running r) =
      .next (.running { state := State.resetOf r.state.cfg, pResponses := [], cResponses := [] }) ∧
    hostStep (.present (.rst pCmd cCmd)) (.running r) =
      .next (.running { state := State.resetOf r.state.cfg, pResponses := [], cResponses := [] }) ∧
    (∀ t, step { r.state with env := e :: r.state.env } = .next t →
      ∃ r', Run.present e r = .next r' ∧ hostStep (.present e) (.running r) = .next (.running r') ∧
        ((∀ p c, e ≠ .rst p c) → r'.state = t)) ∧
    (∀ f, step { r.state with env := e :: r.state.env } = .fault f → hostStep (.present e) (.running r) = .fault f) ∧
    (∀ f, step { r.state with env := e :: r.state.env } = .refused f →
      hostStep (.present e) (.running r) = .refused f) ∧
    hostStep (.construct capacity cdc syncStages) (.built cfg) = .refused .parametersFixed ∧
    hostStep (.construct capacity cdc syncStages) (.running r) = .refused .parametersFixed

/-- 40_fifo_ops R71: `c_data` has a value exactly when `c_ok = 1`, and it is the element slot `head` held; a `p_ok = 1` comes only
from a PUT of the same step; and no step depends on the responses of the step before it. -/
def Obligations.ResponsesBelongToTheirStep : Prop :=
  (∀ s t : State, step s = .next t →
      (t.out.cOk = false → t.out.cData = none) ∧
      (t.out.cOk = true → ∃ v, t.out.cData = some v ∧ Memory.read s.slots s.head = some v) ∧
      (t.out.pOk = true → ∃ e v, s.env.head? = some e ∧ e.pInstr = some (.put .p v))) ∧
    ∀ (s : State) (r : Resp), step { s with out := r } = step s

/-! ### Invariants and laws of whole executions -/

/-- 10_state R32: the reset state is well formed, for every configuration and whatever the environment does next. -/
def Obligations.ResetIsWellFormed : Prop :=
  ∀ (cfg : Cfg) (es : List Event), State.wf { State.resetOf cfg with env := es } = true

/-- 10_state R20, R21, R25: every step keeps the cursors below CAPACITY, the slot storage canonical and inside `0 .. CAPACITY-1`, and
the chains SYNC_STAGES gray codes of pointers below CAPACITY. -/
def Obligations.StepKeepsWellFormed : Prop :=
  ∀ s t : State, s.wf = true → step s = .next t → t.wf = true

/-- 10_state R33, 42_cdc R91: the empty history accounts for the reset state. -/
def Obligations.HistoryHoldsAtReset : Prop :=
  ∀ (cfg : Cfg) (es : List Event), (History.begin cfg).Holds { State.resetOf cfg with env := es }

/-- 10_state R33, 42_cdc R91: if a history accounts for a state, then after every step the history with that step's event and
responses accounts for the next state. -/
def Obligations.StepKeepsHistory : Prop :=
  ∀ (h : History) (s t : State), s.wf = true → h.Holds s → step s = .next t → (h.advance s.env.head? t).Holds t

/-- 10_state R33: in every reachable state the cursors are the counters modulo CAPACITY, without CDC the counters are at most
CAPACITY - 1 apart, the resident count is `Np - Nc`, and each resident element stands in its slot. -/
def Obligations.CursorsCountPutsAndGets : Prop :=
  ∀ (h : History) (s : State), Execution h s →
    s.tail = h.np % s.cfg.capacity ∧ s.head = h.nc % s.cfg.capacity ∧
    (s.cfg.cdc = false → h.nc ≤ h.np ∧ h.np - h.nc ≤ s.cfg.capacity - 1) ∧
    countTrue s = h.np - h.nc ∧
    ∀ j < h.np - h.nc, Memory.read s.slots ((s.head + j) % s.cfg.capacity) = h.puts[h.nc + j]?

/-- 42_cdc R91: in every reachable state with CDC each stage holds the gray code of its counter and all counters stand in the one
order of the rule, `Np` at most CAPACITY - 1 above the oldest sample of `Nc`. -/
def Obligations.CrossingCountersAreOrdered : Prop :=
  ∀ (h : History) (s : State), Execution h s → s.cfg.cdc = true →
    s.hsync = h.nh.map (fun n => bin2gray (n % s.cfg.capacity)) ∧
    s.tsync = h.nt.map (fun n => bin2gray (n % s.cfg.capacity)) ∧
    h.nh.length = s.cfg.syncStages ∧ h.nt.length = s.cfg.syncStages ∧
    (h.nh.reverse ++ [h.nc] ++ h.nt.reverse ++ [h.np]).Pairwise (fun a b => a ≤ b) ∧
    ∀ oldest, h.nh[s.cfg.syncStages - 1]? = some oldest → h.np ≤ oldest + s.cfg.capacity - 1

/-- 40_fifo_ops R69: in every execution from reset, the values got are the first of the values put, in order. -/
def Obligations.FifoOrder : Prop :=
  ∀ (h : History) (s : State), Execution h s → h.gots <+: h.puts

/-- 40_fifo_ops R70: at most CAPACITY - 1 elements are resident; a PUT on a block with that many fails and changes nothing; a GET on
an empty block fails and changes nothing; with CAPACITY = 2 a second PUT with no GET between fails. -/
def Obligations.CapacityLaw : Prop :=
  (∀ (h : History) (s : State), Execution h s → countTrue s ≤ s.cfg.capacity - 1) ∧
    (∀ (s : State) (v : Elem), s.Inv → s.fault = none → countTrue s = s.cfg.capacity - 1 →
      exec (.put .p v) s = .next { s with out := Resp.quiet }) ∧
    (∀ s : State, s.Inv → s.fault = none → countTrue s = 0 →
      exec (.get .c) s = .next { s with out := Resp.quiet }) ∧
    ∀ (s t : State) (v v' : Elem), s.Inv → s.cfg.capacity = 2 → exec (.put .p v) s = .next t → t.out.pOk = true →
      exec (.put .p v') t = .next { t with out := Resp.quiet }

/-- 10_state R23: every live slot holds a value. -/
def Obligations.LiveSlotsHoldValues : Prop :=
  ∀ (s : State) (i : Nat), s.Inv → i < s.cfg.capacity →
    ((i : Int) - s.head) % s.cfg.capacity < ((s.tail : Int) - s.head) % s.cfg.capacity →
    ∃ v, Memory.read s.slots i = some v

/-- 20_memory R44 (laws 3 and 4), R48: whatever the consumer's view counts as readable is written; where the producer's view leaves
room there is room; and a PUT that completes, stored or not, leaves every live slot with its value and live. -/
def Obligations.NoUnpublishedReadNoOverwrite : Prop :=
  ∀ s : State, s.Inv →
    (∀ i < s.cfg.capacity, modDistance s.cfg.capacity i s.head < cCount s → ∃ v, Memory.read s.slots i = some v) ∧
    (pFull s = false → countTrue s < s.cfg.capacity - 1) ∧
    ∀ (v : Elem) (t : State), exec (.put .p v) s = .next t →
      ∀ i < s.cfg.capacity, isLive s i = true →
        Memory.read t.slots i = Memory.read s.slots i ∧ isLive t i = true

/-- 60_exceptions R95: on a block in a state that meets the invariant, a step whose ports present only legal commands (or no event
at all) completes, records no fault and keeps the invariant. -/
def Obligations.LegalCommandsNeverFault : Prop :=
  ∀ s : State, s.Inv → s.fault = none →
    (∀ e, s.env.head? = some e → e.possible s.cfg = true ∧ e.commandsLegal = true) →
    ∃ t, step s = .next t ∧ t.fault = none ∧ t.Inv

/-- 93 I2, 10_state R23: what the slots that are not live hold never shows. Two states that differ only there step to states that
again differ only there, with the same responses. -/
def Obligations.NonLiveSlotsNeverShow : Prop :=
  ∀ (s t : State) (m : Memory), s.Inv →
    (∀ i, i < s.cfg.capacity → isLive s i = true → Memory.read m i = Memory.read s.slots i) →
    step s = .next t →
    ∃ m' : Memory, step { s with slots := m } = .next { t with slots := m' } ∧
      ∀ i, i < t.cfg.capacity → isLive t i = true → Memory.read m' i = Memory.read t.slots i

/-! ### The callers' side -/

/-- 30_encoding R57, R58, R60: the words of the commands and of the pseudo-commands, the two ranges of an immediate with their
patterns, and that everything outside them is rejected. -/
def Obligations.AssemblerEncodesCommands : Prop :=
  (∀ v : Elem, ScriptCmd.nop.word = encode (.nop .p) ∧ (ScriptCmd.put v).word = encode (.put .p v) ∧
      ScriptCmd.get.word = encode (.get .c) ∧ (ScriptCmd.putRetry v).word = encode (.put .p v) ∧
      ScriptCmd.getRetry.word = encode (.get .c)) ∧
    (∀ n : Int, -2147483648 ≤ n → n ≤ 2147483647 →
      ∃ v : Elem, (Imm.decimal n).encode = .ok v ∧ v.toInt = n) ∧
    (∀ n : Int, n < -2147483648 ∨ 2147483647 < n → (Imm.decimal n).encode = .error .immediateOutOfRange) ∧
    (∀ n : Nat, n ≤ 0xFFFFFFFF → ∃ v : Elem, (Imm.hex n).encode = .ok v ∧ v.toNat = n) ∧
    ∀ n : Nat, 0xFFFFFFFF < n → (Imm.hex n).encode = .error .immediateOutOfRange

/-- 30_encoding R59, R60, R61, 70_reset_and_hazards R121: which word a script presents and how its index moves: by one after a
command, for a pseudo-command only when the step succeeded, so that it presents the same word again; past its end it presents NOP
and stays. A reset completes on any block, empties it, begins a new run and takes both scripts back to their first command (that a
discarded place is the beginning of the script is the model's choice, log 13). -/
def Obligations.ScriptsAdvanceByResponse : Prop :=
  (∀ (sc : Script) (ok : Bool),
    (∀ cmd, sc.cmds[sc.si]? = some cmd → sc.word = cmd.word ∧
      ((ok = true ∨ (∀ v, cmd ≠ .putRetry v) ∧ cmd ≠ .getRetry) →
        Script.advance ok sc = { cmds := sc.cmds, si := sc.si + 1 }) ∧
      ((ok = false ∧ ((∃ v, cmd = .putRetry v) ∨ cmd = .getRetry)) →
        Script.advance ok sc = sc ∧ (Script.advance ok sc).word = sc.word)) ∧
    (sc.cmds.length ≤ sc.si → sc.word = encode (.nop .p) ∧ Script.advance ok sc = sc)) ∧
    ∀ b : Bench,
      Bench.turn .rst b =
        .next
          { run := { state := State.resetOf b.run.state.cfg, pResponses := [], cResponses := [] }
            p := { cmds := b.p.cmds, si := 0 }
            c := { cmds := b.c.cmds, si := 0 } }

/-- 70_reset_and_hazards R115, 40_fifo_ops R71: a run ends successfully exactly when there is no fault and each port that still acts
presents NOP; words presented while `rst` is asserted count as presented although they are ignored, and a pending reset whose words
are NOP blocks nothing (the model's deduction, log 20). The observation is the cursors, every slot, the fault register and each
port's responses. A step that completes appends `p_ok` to port P's responses if P acted, and `c_ok` with `c_data` to port C's if C
acted; a reset begins a new run. -/
def Obligations.EndOfRunObservation : Prop :=
  ∀ r : Run,
    (r.endsSuccessfully = true ↔
      r.state.fault = none ∧
        ∀ e ∈ r.state.env,
          (e.pInstr = none ∨ e.pInstr = some (.nop .p)) ∧ (e.cInstr = none ∨ e.cInstr = some (.nop .c)) ∧
            ∀ pCmd cCmd, e = .rst pCmd cCmd → decode .p pCmd = .nop .p ∧ decode .c cCmd = .nop .c) ∧
    r.observe.head = r.state.head ∧ r.observe.tail = r.state.tail ∧ r.observe.fault = r.state.fault ∧
    (∀ i < r.state.cfg.capacity, r.observe.slots[i]? = some (Memory.read r.state.slots i)) ∧
    r.observe.slots.length = r.state.cfg.capacity ∧
    r.observe.pResponses = r.pResponses ∧ r.observe.cResponses = r.cResponses ∧
    (∀ (e : Event) (t : State), step { r.state with env := e :: r.state.env } = .next t → (∀ p c, e ≠ .rst p c) →
      Run.present e r =
        .next
          { state := t
            pResponses := if e.pInstr.isSome then r.pResponses ++ [t.out.pOk] else r.pResponses
            cResponses := if e.cInstr.isSome then r.cResponses ++ [(t.out.cOk, t.out.cData)] else r.cResponses }) ∧
    ∀ pCmd cCmd : CmdWord,
      Run.present (.rst pCmd cCmd) r =
        .next { state := State.resetOf r.state.cfg, pResponses := [], cResponses := [] }
end

