-- ==== Sys2Proof/Laws/Config.lean ====
section
/-!
SUPPORT. What an accepted configuration and the pointer width satisfy (00_scope R6, R8, R10; 42_cdc R82).
-/

namespace Sys2Proof

/-- `2 ^ clog2 n` reaches `n`. -/
theorem le_two_pow_clog2 (n : Nat) : n ≤ 2 ^ clog2 n := by
  unfold clog2
  split
  · next h => simpa using h
  · have := @Nat.lt_log2_self (n - 1)
    omega

/-- No smaller exponent reaches `n`. -/
theorem two_pow_lt_of_lt_clog2 {n k : Nat} (hk : k < clog2 n) : 2 ^ k < n := by
  unfold clog2 at hk
  split at hk
  · omega
  · next h =>
    have h1 : 2 ^ k ≤ 2 ^ (n - 1).log2 := Nat.pow_le_pow_right (by omega) (by omega)
    have h2 := Nat.log2_self_le (n := n - 1) (by omega)
    omega

theorem le_two_pow_ptrWidth (n : Nat) : n ≤ 2 ^ ptrWidth n :=
  (le_two_pow_clog2 n).trans (Nat.pow_le_pow_right (by omega) (le_max_right _ _))

theorem cfgRefusal_eq_none {capacity syncStages : Nat} {cdc : Bool} :
    cfgRefusal capacity cdc syncStages = none ↔
      2 ≤ capacity ∧ (cdc = true → capacity = 2 ^ clog2 capacity ∧ 2 ≤ syncStages) := by
  unfold cfgRefusal isPowerOfTwo
  generalize 2 ^ clog2 capacity = power
  by_cases h1 : capacity < 2
  · rw [if_pos h1]
    exact iff_of_false (by simp) (fun h => by omega)
  · rw [if_neg h1]
    cases cdc
    · simp only [Bool.false_and, Bool.false_eq_true, if_false, true_iff]
      exact ⟨by omega, fun h => nomatch h⟩
    · by_cases h2 : capacity = power
      · by_cases h3 : syncStages < 2
        · simp [h2, h3]
        · simp only [h2, h3, beq_self_eq_true, Bool.not_true, Bool.and_false, Bool.false_eq_true,
            decide_false, if_false, true_iff]
          exact ⟨by omega, fun _ => ⟨trivial, by omega⟩⟩
      · simp [h2]

theorem Cfg.two_le_capacity (c : Cfg) : 2 ≤ c.capacity :=
  (cfgRefusal_eq_none.mp c.accepted).1

theorem Cfg.capacity_le (c : Cfg) : c.capacity ≤ 2 ^ c.ptrW :=
  le_two_pow_ptrWidth c.capacity

theorem Cfg.two_le_syncStages (c : Cfg) (h : c.cdc = true) : 2 ≤ c.syncStages :=
  ((cfgRefusal_eq_none.mp c.accepted).2 h).2

/-- With CDC the capacity is `2 ^ PTR_W` (42_cdc R82). -/
theorem Cfg.capacity_eq_two_pow (c : Cfg) (h : c.cdc = true) : c.capacity = 2 ^ c.ptrW := by
  have h1 := ((cfgRefusal_eq_none.mp c.accepted).2 h).1
  have h2 := c.two_le_capacity
  have h3 : 1 ≤ clog2 c.capacity := by
    by_contra hc
    have : clog2 c.capacity = 0 := by omega
    rw [this] at h1
    omega
  have h4 : c.ptrW = clog2 c.capacity := by
    unfold Cfg.ptrW ptrWidth
    omega
  rw [h4]
  exact h1

@[simp] theorem Cfg.stages_of_cdc {c : Cfg} (h : c.cdc = true) : c.stages = c.syncStages := by
  simp [Cfg.stages, h]

@[simp] theorem Cfg.stages_of_not_cdc {c : Cfg} (h : c.cdc = false) : c.stages = 0 := by
  simp [Cfg.stages, h]

end Sys2Proof
end

