-- ==== Sys2Proof/Laws/State.lean ====
section
/-!
SUPPORT. One lemma per field per update of the state, each true by rfl, so that no later proof unfolds a record update; and what
the updates that write no cursor and no chain leave of the views and the status outputs.
-/

namespace Sys2Proof.Machine

open Sys2Proof

@[simp] theorem respond_cfg (r : Resp) (s : State) : (respond r s).cfg = s.cfg := rfl
@[simp] theorem respond_head (r : Resp) (s : State) : (respond r s).head = s.head := rfl
@[simp] theorem respond_tail (r : Resp) (s : State) : (respond r s).tail = s.tail := rfl
@[simp] theorem respond_slots (r : Resp) (s : State) : (respond r s).slots = s.slots := rfl
@[simp] theorem respond_fault (r : Resp) (s : State) : (respond r s).fault = s.fault := rfl
@[simp] theorem respond_hsync (r : Resp) (s : State) : (respond r s).hsync = s.hsync := rfl
@[simp] theorem respond_tsync (r : Resp) (s : State) : (respond r s).tsync = s.tsync := rfl
@[simp] theorem respond_env (r : Resp) (s : State) : (respond r s).env = s.env := rfl
@[simp] theorem respond_out (r : Resp) (s : State) : (respond r s).out = r := rfl

@[simp] theorem setEnv_cfg (es : List Event) (s : State) : (setEnv es s).cfg = s.cfg := rfl
@[simp] theorem setEnv_head (es : List Event) (s : State) : (setEnv es s).head = s.head := rfl
@[simp] theorem setEnv_tail (es : List Event) (s : State) : (setEnv es s).tail = s.tail := rfl
@[simp] theorem setEnv_slots (es : List Event) (s : State) : (setEnv es s).slots = s.slots := rfl
@[simp] theorem setEnv_fault (es : List Event) (s : State) : (setEnv es s).fault = s.fault := rfl
@[simp] theorem setEnv_hsync (es : List Event) (s : State) : (setEnv es s).hsync = s.hsync := rfl
@[simp] theorem setEnv_tsync (es : List Event) (s : State) : (setEnv es s).tsync = s.tsync := rfl
@[simp] theorem setEnv_env (es : List Event) (s : State) : (setEnv es s).env = es := rfl
@[simp] theorem setEnv_out (es : List Event) (s : State) : (setEnv es s).out = s.out := rfl

@[simp] theorem raiseFault_cfg (code : FaultCode) (q : Port) (s : State) : (raiseFault code q s).cfg = s.cfg := rfl
@[simp] theorem raiseFault_head (code : FaultCode) (q : Port) (s : State) : (raiseFault code q s).head = s.head := rfl
@[simp] theorem raiseFault_tail (code : FaultCode) (q : Port) (s : State) : (raiseFault code q s).tail = s.tail := rfl
@[simp] theorem raiseFault_slots (code : FaultCode) (q : Port) (s : State) : (raiseFault code q s).slots = s.slots := rfl
@[simp] theorem raiseFault_fault (code : FaultCode) (q : Port) (s : State) : (raiseFault code q s).fault = some (code, q) := rfl
@[simp] theorem raiseFault_hsync (code : FaultCode) (q : Port) (s : State) : (raiseFault code q s).hsync = s.hsync := rfl
@[simp] theorem raiseFault_tsync (code : FaultCode) (q : Port) (s : State) : (raiseFault code q s).tsync = s.tsync := rfl
@[simp] theorem raiseFault_env (code : FaultCode) (q : Port) (s : State) : (raiseFault code q s).env = s.env := rfl
@[simp] theorem raiseFault_out (code : FaultCode) (q : Port) (s : State) : (raiseFault code q s).out = Resp.quiet := rfl

@[simp] theorem storeElem_cfg (v : Elem) (s : State) : (storeElem v s).cfg = s.cfg := rfl
@[simp] theorem storeElem_head (v : Elem) (s : State) : (storeElem v s).head = s.head := rfl
@[simp] theorem storeElem_tail (v : Elem) (s : State) : (storeElem v s).tail = nextTail s := rfl
@[simp] theorem storeElem_slots (v : Elem) (s : State) : (storeElem v s).slots = Memory.write s.slots s.tail v := rfl
@[simp] theorem storeElem_fault (v : Elem) (s : State) : (storeElem v s).fault = s.fault := rfl
@[simp] theorem storeElem_hsync (v : Elem) (s : State) : (storeElem v s).hsync = s.hsync := rfl
@[simp] theorem storeElem_tsync (v : Elem) (s : State) : (storeElem v s).tsync = s.tsync := rfl
@[simp] theorem storeElem_env (v : Elem) (s : State) : (storeElem v s).env = s.env := rfl
@[simp] theorem storeElem_out (v : Elem) (s : State) : (storeElem v s).out = { pOk := true, cOk := false, cData := none } := rfl

@[simp] theorem takeElem_cfg (v : Elem) (s : State) : (takeElem v s).cfg = s.cfg := rfl
@[simp] theorem takeElem_head (v : Elem) (s : State) : (takeElem v s).head = nextHead s := rfl
@[simp] theorem takeElem_tail (v : Elem) (s : State) : (takeElem v s).tail = s.tail := rfl
@[simp] theorem takeElem_slots (v : Elem) (s : State) : (takeElem v s).slots = s.slots := rfl
@[simp] theorem takeElem_fault (v : Elem) (s : State) : (takeElem v s).fault = s.fault := rfl
@[simp] theorem takeElem_hsync (v : Elem) (s : State) : (takeElem v s).hsync = s.hsync := rfl
@[simp] theorem takeElem_tsync (v : Elem) (s : State) : (takeElem v s).tsync = s.tsync := rfl
@[simp] theorem takeElem_env (v : Elem) (s : State) : (takeElem v s).env = s.env := rfl
@[simp] theorem takeElem_out (v : Elem) (s : State) : (takeElem v s).out = { pOk := false, cOk := true, cData := some v } := rfl

@[simp] theorem mergePorts_cfg (s sp sc : State) : (mergePorts s sp sc).cfg = s.cfg := rfl
@[simp] theorem mergePorts_head (s sp sc : State) : (mergePorts s sp sc).head = sc.head := rfl
@[simp] theorem mergePorts_tail (s sp sc : State) : (mergePorts s sp sc).tail = sp.tail := rfl
@[simp] theorem mergePorts_slots (s sp sc : State) : (mergePorts s sp sc).slots = sp.slots := rfl
@[simp] theorem mergePorts_fault (s sp sc : State) : (mergePorts s sp sc).fault = s.fault := rfl
@[simp] theorem mergePorts_hsync (s sp sc : State) : (mergePorts s sp sc).hsync = s.hsync := rfl
@[simp] theorem mergePorts_tsync (s sp sc : State) : (mergePorts s sp sc).tsync = s.tsync := rfl
@[simp] theorem mergePorts_env (s sp sc : State) : (mergePorts s sp sc).env = s.env := rfl
@[simp] theorem mergePorts_out (s sp sc : State) : (mergePorts s sp sc).out = { pOk := sp.out.pOk, cOk := sc.out.cOk, cData := sc.out.cData } := rfl

@[simp] theorem sampleHead_cfg (s : State) : (sampleHead s).cfg = s.cfg := rfl
@[simp] theorem sampleHead_head (s : State) : (sampleHead s).head = s.head := rfl
@[simp] theorem sampleHead_tail (s : State) : (sampleHead s).tail = s.tail := rfl
@[simp] theorem sampleHead_slots (s : State) : (sampleHead s).slots = s.slots := rfl
@[simp] theorem sampleHead_fault (s : State) : (sampleHead s).fault = s.fault := rfl
@[simp] theorem sampleHead_hsync (s : State) : (sampleHead s).hsync = shiftChain s.cfg s.head s.hsync := rfl
@[simp] theorem sampleHead_tsync (s : State) : (sampleHead s).tsync = s.tsync := rfl
@[simp] theorem sampleHead_env (s : State) : (sampleHead s).env = s.env := rfl
@[simp] theorem sampleHead_out (s : State) : (sampleHead s).out = Resp.quiet := rfl

@[simp] theorem sampleTail_cfg (s : State) : (sampleTail s).cfg = s.cfg := rfl
@[simp] theorem sampleTail_head (s : State) : (sampleTail s).head = s.head := rfl
@[simp] theorem sampleTail_tail (s : State) : (sampleTail s).tail = s.tail := rfl
@[simp] theorem sampleTail_slots (s : State) : (sampleTail s).slots = s.slots := rfl
@[simp] theorem sampleTail_fault (s : State) : (sampleTail s).fault = s.fault := rfl
@[simp] theorem sampleTail_hsync (s : State) : (sampleTail s).hsync = s.hsync := rfl
@[simp] theorem sampleTail_tsync (s : State) : (sampleTail s).tsync = shiftChain s.cfg s.tail s.tsync := rfl
@[simp] theorem sampleTail_env (s : State) : (sampleTail s).env = s.env := rfl
@[simp] theorem sampleTail_out (s : State) : (sampleTail s).out = Resp.quiet := rfl

@[simp] theorem resetBlock_cfg (s : State) : (resetBlock s).cfg = s.cfg := rfl
@[simp] theorem resetBlock_head (s : State) : (resetBlock s).head = 0 := rfl
@[simp] theorem resetBlock_tail (s : State) : (resetBlock s).tail = 0 := rfl
@[simp] theorem resetBlock_slots (s : State) : (resetBlock s).slots = [] := rfl
@[simp] theorem resetBlock_fault (s : State) : (resetBlock s).fault = none := rfl
@[simp] theorem resetBlock_hsync (s : State) : (resetBlock s).hsync = List.replicate s.cfg.stages 0 := rfl
@[simp] theorem resetBlock_tsync (s : State) : (resetBlock s).tsync = List.replicate s.cfg.stages 0 := rfl
@[simp] theorem resetBlock_env (s : State) : (resetBlock s).env = s.env := rfl
@[simp] theorem resetBlock_out (s : State) : (resetBlock s).out = Resp.quiet := rfl

@[simp] theorem resetOf_cfg (cfg : Cfg) : (State.resetOf cfg).cfg = cfg := rfl
@[simp] theorem resetOf_head (cfg : Cfg) : (State.resetOf cfg).head = 0 := rfl
@[simp] theorem resetOf_tail (cfg : Cfg) : (State.resetOf cfg).tail = 0 := rfl
@[simp] theorem resetOf_slots (cfg : Cfg) : (State.resetOf cfg).slots = [] := rfl
@[simp] theorem resetOf_fault (cfg : Cfg) : (State.resetOf cfg).fault = none := rfl
@[simp] theorem resetOf_hsync (cfg : Cfg) : (State.resetOf cfg).hsync = List.replicate cfg.stages 0 := rfl
@[simp] theorem resetOf_tsync (cfg : Cfg) : (State.resetOf cfg).tsync = List.replicate cfg.stages 0 := rfl
@[simp] theorem resetOf_env (cfg : Cfg) : (State.resetOf cfg).env = [] := rfl
@[simp] theorem resetOf_out (cfg : Cfg) : (State.resetOf cfg).out = Resp.quiet := rfl

@[simp] theorem nextTail_respond (r : Resp) (s : State) : nextTail (respond r s) = nextTail s := rfl
@[simp] theorem nextHead_respond (r : Resp) (s : State) : nextHead (respond r s) = nextHead s := rfl
@[simp] theorem hview_respond (r : Resp) (s : State) : hview (respond r s) = hview s := rfl
@[simp] theorem tview_respond (r : Resp) (s : State) : tview (respond r s) = tview s := rfl
@[simp] theorem pFull_respond (r : Resp) (s : State) : pFull (respond r s) = pFull s := rfl
@[simp] theorem cEmpty_respond (r : Resp) (s : State) : cEmpty (respond r s) = cEmpty s := rfl
@[simp] theorem pCount_respond (r : Resp) (s : State) : pCount (respond r s) = pCount s := rfl
@[simp] theorem cCount_respond (r : Resp) (s : State) : cCount (respond r s) = cCount s := rfl
@[simp] theorem countTrue_respond (r : Resp) (s : State) : countTrue (respond r s) = countTrue s := rfl

@[simp] theorem nextTail_setEnv (es : List Event) (s : State) : nextTail (setEnv es s) = nextTail s := rfl
@[simp] theorem nextHead_setEnv (es : List Event) (s : State) : nextHead (setEnv es s) = nextHead s := rfl
@[simp] theorem hview_setEnv (es : List Event) (s : State) : hview (setEnv es s) = hview s := rfl
@[simp] theorem tview_setEnv (es : List Event) (s : State) : tview (setEnv es s) = tview s := rfl
@[simp] theorem pFull_setEnv (es : List Event) (s : State) : pFull (setEnv es s) = pFull s := rfl
@[simp] theorem cEmpty_setEnv (es : List Event) (s : State) : cEmpty (setEnv es s) = cEmpty s := rfl
@[simp] theorem pCount_setEnv (es : List Event) (s : State) : pCount (setEnv es s) = pCount s := rfl
@[simp] theorem cCount_setEnv (es : List Event) (s : State) : cCount (setEnv es s) = cCount s := rfl
@[simp] theorem countTrue_setEnv (es : List Event) (s : State) : countTrue (setEnv es s) = countTrue s := rfl

@[simp] theorem nextTail_raiseFault (code : FaultCode) (q : Port) (s : State) : nextTail (raiseFault code q s) = nextTail s := rfl
@[simp] theorem nextHead_raiseFault (code : FaultCode) (q : Port) (s : State) : nextHead (raiseFault code q s) = nextHead s := rfl
@[simp] theorem hview_raiseFault (code : FaultCode) (q : Port) (s : State) : hview (raiseFault code q s) = hview s := rfl
@[simp] theorem tview_raiseFault (code : FaultCode) (q : Port) (s : State) : tview (raiseFault code q s) = tview s := rfl
@[simp] theorem pFull_raiseFault (code : FaultCode) (q : Port) (s : State) : pFull (raiseFault code q s) = pFull s := rfl
@[simp] theorem cEmpty_raiseFault (code : FaultCode) (q : Port) (s : State) : cEmpty (raiseFault code q s) = cEmpty s := rfl
@[simp] theorem pCount_raiseFault (code : FaultCode) (q : Port) (s : State) : pCount (raiseFault code q s) = pCount s := rfl
@[simp] theorem cCount_raiseFault (code : FaultCode) (q : Port) (s : State) : cCount (raiseFault code q s) = cCount s := rfl
@[simp] theorem countTrue_raiseFault (code : FaultCode) (q : Port) (s : State) : countTrue (raiseFault code q s) = countTrue s := rfl

@[simp] theorem respond_respond (r r' : Resp) (s : State) : respond r (respond r' s) = respond r s := rfl
@[simp] theorem setEnv_setEnv (es es' : List Event) (s : State) : setEnv es (setEnv es' s) = setEnv es s := rfl
@[simp] theorem setEnv_self (s : State) : setEnv s.env s = s := rfl

end Sys2Proof.Machine
end

