-- ==== Sys2Proof/Laws/Ops.lean ====
section
/-!
SUPPORT. Each shared operation said once: what a command can do when it answers a next state (`exec_next`), what a step of both
ports can do (`bothPorts_next`), and what each command answers on a running block.
-/

namespace Sys2Proof.Machine

open Sys2Proof

/-- Everything a command that answers a next state can have done: `Effect i s t`. -/
inductive Effect : Instr → State → State → Prop where
  /-- NOP -/
  | nop (q : Port) (s : State) : Effect (.nop q) s (respond Resp.quiet s)
  /-- PUT that observes full -/
  | full (v : Elem) (s : State) (hfull : pFull s = true) : Effect (.put .p v) s (respond Resp.quiet s)
  /-- PUT that succeeds -/
  | stored (v : Elem) (s : State) (hroom : pFull s = false) (hslot : s.tail < s.cfg.capacity) :
      Effect (.put .p v) s (storeElem v s)
  /-- GET that observes empty -/
  | empty (s : State) (hempty : cEmpty s = true) : Effect (.get .c) s (respond Resp.quiet s)
  /-- GET that succeeds -/
  | taken (v : Elem) (s : State) (hsome : cEmpty s = false) (hslot : s.head < s.cfg.capacity)
      (hread : Memory.read s.slots s.head = some v) : Effect (.get .c) s (takeElem v s)
  /-- GET of an unwritten slot -/
  | unwritten (s : State) (hsome : cEmpty s = false) (hslot : s.head < s.cfg.capacity)
      (hread : Memory.read s.slots s.head = none) :
      Effect (.get .c) s (raiseFault .unwrittenSlot .c s)
  /-- a command that decoding alone finds illegal -/
  | illegal (i : Instr) (s : State) (code : FaultCode) (hcode : i.verdict = some code) :
      Effect i s (raiseFault code i.port s)

/-- Decoding keeps the port that presents the word. -/
@[simp] theorem port_decode (q : Port) (w : CmdWord) : (decode q w).port = q := by
  unfold decode
  split_ifs <;> rfl

theorem whenRunning_of_running {s : State} {k : Host.Outcome State Fault Refusal} (h : s.fault = none) :
    whenRunning s k = k := by
  simp [whenRunning, h]

theorem whenRunning_next {s t : State} {k : Host.Outcome State Fault Refusal}
    (h : whenRunning s k = .next t) : s.fault = none ∧ k = .next t := by
  unfold whenRunning at h
  split at h
  · exact ⟨‹_›, h⟩
  · cases h

theorem whenSlot_of_lt {s : State} {i : Nat} {k : Host.Outcome State Fault Refusal}
    (h : i < s.cfg.capacity) : whenSlot s i k = k := by
  simp [whenSlot, h]

theorem whenSlot_next {s t : State} {i : Nat} {k : Host.Outcome State Fault Refusal}
    (h : whenSlot s i k = .next t) : i < s.cfg.capacity ∧ k = .next t := by
  unfold whenSlot at h
  split at h
  · exact ⟨‹_›, h⟩
  · cases h

theorem putElem_next {v : Elem} {s t : State} (h : putElem v s = .next t) : Effect (.put .p v) s t := by
  unfold putElem at h
  split at h
  · cases h; exact .full v s ‹_›
  · obtain ⟨hslot, h⟩ := whenSlot_next h
    cases h
    exact .stored v s (Bool.eq_false_iff.mpr ‹_›) hslot

theorem getElem_next {s t : State} (h : getElem s = .next t) : Effect (.get .c) s t := by
  unfold getElem at h
  split at h
  · cases h; exact .empty s ‹_›
  · obtain ⟨hslot, h⟩ := whenSlot_next h
    split at h
    · cases h; exact .unwritten s (Bool.eq_false_iff.mpr ‹_›) hslot ‹_›
    · cases h; exact .taken _ s (Bool.eq_false_iff.mpr ‹_›) hslot ‹_›

/-- A command answers a next state only on a running block, and then by one of its effects. -/
theorem exec_next {i : Instr} {s t : State} (h : exec i s = .next t) : s.fault = none ∧ Effect i s t := by
  cases i with
  | nop q =>
    obtain ⟨hr, h⟩ := whenRunning_next h
    cases h
    exact ⟨hr, .nop q s⟩
  | put q v =>
    obtain ⟨hr, h⟩ := whenRunning_next h
    cases q with
    | p => exact ⟨hr, putElem_next h⟩
    | c => cases h; exact ⟨hr, .illegal (.put .c v) s .portRole rfl⟩
  | get q =>
    obtain ⟨hr, h⟩ := whenRunning_next h
    cases q with
    | p => cases h; exact ⟨hr, .illegal (.get .p) s .portRole rfl⟩
    | c => exact ⟨hr, getElem_next h⟩
  | reservedOp11 q =>
    obtain ⟨hr, h⟩ := whenRunning_next h
    cases h
    exact ⟨hr, .illegal (.reservedOp11 q) s .illegalOp rfl⟩

/-- Each effect is what the command answers on a running block. -/
theorem exec_of_effect {i : Instr} {s t : State} (hr : s.fault = none) (h : Effect i s t) :
    exec i s = .next t := by
  cases h with
  | nop q => simp [exec, execNop, whenRunning, hr]
  | full v _ hfull => simp [exec, execPut, putElem, whenRunning, hr, hfull]
  | stored v _ hroom hslot => simp [exec, execPut, putElem, whenRunning, whenSlot, hr, hroom, hslot]
  | empty _ hempty => simp [exec, execGet, getElem, whenRunning, hr, hempty]
  | taken v _ hsome hslot hread =>
    simp [exec, execGet, getElem, whenRunning, whenSlot, hr, hsome, hslot, hread]
  | unwritten _ hsome hslot hread =>
    simp [exec, execGet, getElem, whenRunning, whenSlot, hr, hsome, hslot, hread]
  | illegal _ _ code hcode =>
    cases i with
    | nop q => cases hcode
    | put q v => cases q <;> simp_all [Instr.verdict, exec, execPut, whenRunning, Instr.port]
    | get q => cases q <;> simp_all [Instr.verdict, exec, execGet, whenRunning, Instr.port]
    | reservedOp11 q => simp_all [Instr.verdict, exec, execReservedOp11, whenRunning, Instr.port]

/-- No command acts on a faulted block (60_exceptions R105). -/
theorem exec_of_faulted {i : Instr} {s : State} {code : FaultCode} {q : Port}
    (h : s.fault = some (code, q)) : exec i s = .fault (.blockFaulted code q) := by
  cases i <;> simp [exec, execNop, execPut, execGet, execReservedOp11, whenRunning, h]

/-- A command keeps the fault register, or records a fault and changes nothing else (60_exceptions R103). -/
theorem Effect.fault_cases {i : Instr} {s t : State} (h : Effect i s t) :
    t.fault = s.fault ∨ ∃ code, t = raiseFault code i.port s := by
  cases h with
  | nop => exact .inl rfl
  | full => exact .inl rfl
  | stored => exact .inl rfl
  | empty => exact .inl rfl
  | taken => exact .inl rfl
  | unwritten => exact .inr ⟨_, rfl⟩
  | illegal _ _ code => exact .inr ⟨code, rfl⟩

/-- No command changes the parameters, the chains or what the environment does next. -/
theorem Effect.frame {i : Instr} {s t : State} (h : Effect i s t) :
    t.cfg = s.cfg ∧ t.hsync = s.hsync ∧ t.tsync = s.tsync ∧ t.env = s.env := by
  cases h <;> exact ⟨rfl, rfl, rfl, rfl⟩

/-- A step of both ports that answers a next state ran on a running block; it recorded the first fault of 60_exceptions R104,
P's before C's, or it merged the two effects. -/
theorem bothPorts_next {ip ic : Instr} {s t : State} (h : bothPorts ip ic s = .next t) :
    s.fault = none ∧
      ((∃ code, Effect ip s (raiseFault code ip.port s) ∧ t = raiseFault code ip.port s) ∨
        (∃ sp code, Effect ip s sp ∧ sp.fault = none ∧
          Effect ic s (raiseFault code ic.port s) ∧ t = raiseFault code ic.port s) ∨
        (∃ sp sc, Effect ip s sp ∧ sp.fault = none ∧ Effect ic s sc ∧ sc.fault = none ∧
          t = mergePorts s sp sc)) := by
  unfold bothPorts at h
  split at h
  · next sp hp =>
    obtain ⟨hr, ep⟩ := exec_next hp
    refine ⟨hr, ?_⟩
    split at h
    · next hf =>
      cases h
      rcases ep.fault_cases with hs | ⟨code, rfl⟩
      · simp [hs, hr] at hf
      · exact .inl ⟨code, ep, rfl⟩
    · next hf =>
      have hsp : sp.fault = none := by simpa using hf
      split at h
      · next sc hc =>
        obtain ⟨-, ec⟩ := exec_next hc
        split at h
        · next hfc =>
          cases h
          rcases ec.fault_cases with hs | ⟨code, rfl⟩
          · simp [hs, hr] at hfc
          · exact .inr (.inl ⟨sp, code, ep, hsp, ec, rfl⟩)
        · next hfc =>
          cases h
          exact .inr (.inr ⟨sp, sc, ep, hsp, ec, by simpa using hfc, rfl⟩)
      · next hne => exact absurd h (hne t)
  · next hne => exact absurd h (hne t)

/-- Two effects that record no fault merge. -/
theorem bothPorts_of_effects {ip ic : Instr} {s sp sc : State} (hr : s.fault = none) (ep : Effect ip s sp)
    (hp : sp.fault = none) (ec : Effect ic s sc) (hc : sc.fault = none) :
    bothPorts ip ic s = .next (mergePorts s sp sc) := by
  simp [bothPorts, exec_of_effect hr ep, exec_of_effect hr ec, hp, hc]

theorem stepSH_next {s t : State} (h : stepSH s = .next t) :
    s.cfg.cdc = true ∧ s.fault = none ∧ t = sampleHead s := by
  unfold stepSH at h
  split at h
  · obtain ⟨hr, h⟩ := whenRunning_next h
    cases h
    exact ⟨‹_›, hr, rfl⟩
  · cases h

theorem stepST_next {s t : State} (h : stepST s = .next t) :
    s.cfg.cdc = true ∧ s.fault = none ∧ t = sampleTail s := by
  unfold stepST at h
  split at h
  · obtain ⟨hr, h⟩ := whenRunning_next h
    cases h
    exact ⟨‹_›, hr, rfl⟩
  · cases h

end Sys2Proof.Machine
end

