-- ==== Sys2Proof/Laws/Step.lean ====
section
/-!
SUPPORT. What one step can have done when it answers a next state, by the event the environment presented.
-/

namespace Sys2Proof.Machine

open Sys2Proof

theorem step_of_nil {s : State} (h : s.env = []) : step s = idle s := by
  simp [step, stepEnv, h]

theorem step_of_cons {s : State} {e : Event} {rest : List Event} (h : s.env = e :: rest) :
    step s = perform e (setEnv rest s) := by
  simp [step, stepEnv, h]

/-- What an event that answers a next state has done. -/
theorem perform_next {e : Event} {s t : State} (h : perform e s = .next t) :
    (∃ pCmd cCmd, e = .cycle pCmd cCmd ∧ s.cfg.cdc = false ∧
        bothPorts (decode .p pCmd) (decode .c cCmd) s = .next t) ∨
      (∃ pCmd, e = .stepP pCmd ∧ exec (decode .p pCmd) s = .next t) ∨
      (∃ cCmd, e = .stepC cCmd ∧ exec (decode .c cCmd) s = .next t) ∨
      (e = .stepSH ∧ s.cfg.cdc = true ∧ s.fault = none ∧ t = sampleHead s) ∨
      (e = .stepST ∧ s.cfg.cdc = true ∧ s.fault = none ∧ t = sampleTail s) ∨
      (∃ pCmd cCmd, e = .rst pCmd cCmd ∧ t = resetBlock s) := by
  cases e with
  | cycle pCmd cCmd =>
    simp only [perform] at h
    split at h
    · cases h
    · exact .inl ⟨pCmd, cCmd, rfl, Bool.eq_false_iff.mpr ‹_›, h⟩
  | stepP pCmd => exact .inr (.inl ⟨pCmd, rfl, h⟩)
  | stepC cCmd => exact .inr (.inr (.inl ⟨cCmd, rfl, h⟩))
  | stepSH => exact .inr (.inr (.inr (.inl ⟨rfl, stepSH_next h⟩)))
  | stepST => exact .inr (.inr (.inr (.inr (.inl ⟨rfl, stepST_next h⟩))))
  | rst pCmd cCmd => cases h; exact .inr (.inr (.inr (.inr (.inr ⟨pCmd, cCmd, rfl, rfl⟩))))
  | rstPart part => cases h

/-- A step is an idle step, or the next event performed with the rest of the events left. -/
theorem step_next {s t : State} (h : step s = .next t) :
    (s.env = [] ∧ s.fault = none ∧ t = respond Resp.quiet s) ∨
      (∃ e rest, s.env = e :: rest ∧ perform e (setEnv rest s) = .next t) := by
  cases henv : s.env with
  | nil =>
    rw [step_of_nil henv] at h
    obtain ⟨hr, h⟩ := whenRunning_next h
    cases h
    exact .inl ⟨rfl, hr, rfl⟩
  | cons e rest =>
    rw [step_of_cons henv] at h
    exact .inr ⟨e, rest, rfl, h⟩

end Sys2Proof.Machine
end

