-- ==== Sys2Proof/Laws/Lifecycle.lean ====
section
/-!
SUPPORT. The host's and the callers' operations said once: what elaboration, a presented event and a turn of a bench answer.
-/

namespace Sys2Proof.Machine

open Sys2Proof

/-- Elaboration that succeeds has the chosen parameters, and no refusal applied to them. -/
theorem elaborate_next {capacity syncStages : Nat} {cdc : Bool} {cfg : Cfg}
    (h : elaborate capacity cdc syncStages = .next cfg) :
    cfg.capacity = capacity ∧ cfg.cdc = cdc ∧ cfg.syncStages = syncStages ∧
      cfgRefusal capacity cdc syncStages = none := by
  unfold elaborate at h
  split at h
  · next hn => cases h; exact ⟨rfl, rfl, rfl, hn⟩
  · cases h

/-- Elaboration that is refused names the first refusal that applies. -/
theorem elaborate_refused {capacity syncStages : Nat} {cdc : Bool} {why : Refusal}
    (h : elaborate capacity cdc syncStages = .refused why) :
    ∃ r, cfgRefusal capacity cdc syncStages = some r ∧ why = .config r := by
  unfold elaborate at h
  split at h
  · cases h
  · next r hr => cases h; exact ⟨r, hr, rfl⟩

/-- A presented event is one step of the block, recorded. -/
theorem Run.present_next {e : Event} {r r' : Run} (h : Run.present e r = .next r') :
    ∃ t, step (setEnv (e :: r.state.env) r.state) = .next t ∧ r' = r.record e t := by
  unfold Run.present at h
  split at h
  · next t ht => cases h; exact ⟨t, ht, rfl⟩
  · cases h
  · cases h

/-- The record of a step that was no reset. -/
theorem Run.record_of_not_reset {e : Event} (h : e.isReset = false) (t : State) (r : Run) :
    r.record e t =
      { state := t
        pResponses := if e.actsP then r.pResponses ++ [t.out.pOk] else r.pResponses
        cResponses := if e.actsC then r.cResponses ++ [(t.out.cOk, t.out.cData)] else r.cResponses } := by
  simp [Run.record, h]

/-- A step that presents `rst` always answers, and begins a new run (70_reset_and_hazards R110, R111). -/
theorem Run.present_rst (p c : CmdWord) (r : Run) :
    Run.present (.rst p c) r = .next (Run.begin r.state.cfg) := rfl

/-- Asserting `rst` through the ports is the host's reset, before the first reset and after it (70_reset_and_hazards R111, R113). -/
theorem hostStep_present_rst (p c : CmdWord) (l : Life) :
    hostStep (.present (.rst p c)) l = hostStep .reset l := by
  cases l <;> rfl

/-- What a turn leaves of a script whose agent did not reset. -/
theorem Script.afterEvent_of_not_reset (acted ok : Bool) (sc : Script) :
    sc.afterEvent false acted ok = if acted then sc.advance ok else sc := rfl

/-- A reset takes a script back to its beginning. -/
theorem Script.afterEvent_reset (acted ok : Bool) (sc : Script) : sc.afterEvent true acted ok = sc.restart := rfl

/-- A turn presents the scripts' words, and takes each script on by what it did. -/
theorem Bench.turn_next {who : Turn} {b b' : Bench} (h : Bench.turn who b = .next b') :
    Run.present (b.event who) b.run = .next b'.run ∧
      b'.p = b.p.afterEvent (b.event who).isReset (b.event who).actsP b'.run.state.out.pOk ∧
      b'.c = b.c.afterEvent (b.event who).isReset (b.event who).actsC b'.run.state.out.cOk := by
  unfold Bench.turn at h
  split at h
  · next r hr => cases h; exact ⟨hr, rfl, rfl⟩
  · cases h
  · cases h

end Sys2Proof.Machine
end

