-- ==== Sys2Proof/Laws/Memory.lean ====
section
/-!
SUPPORT. The laws of the slot storage: reading after writing, and that a write keeps the canonical form and stays inside the
bounds.
-/

namespace Sys2Proof.Machine

open Sys2Proof

@[simp] theorem Memory.read_nil (i : Nat) : Memory.read [] i = none := rfl

@[simp] theorem Memory.read_cons (j : Nat) (v : Elem) (m : Memory) (i : Nat) :
    Memory.read ((j, v) :: m) i = if j = i then some v else Memory.read m i := rfl

/-- A read of the slot just written gives the element written. -/
theorem Memory.read_write_same (m : Memory) (i : Nat) (v : Elem) :
    Memory.read (Memory.write m i v) i = some v := by
  induction m with
  | nil => simp [Memory.write]
  | cons cell rest ih =>
    obtain ⟨j, w⟩ := cell
    simp only [Memory.write]
    split
    · simp
    · split
      · simp
      · simp_all

/-- A write leaves every other slot as it was. -/
theorem Memory.read_write_other (m : Memory) {i k : Nat} (v : Elem) (h : k ≠ i) :
    Memory.read (Memory.write m i v) k = Memory.read m k := by
  have h' : i ≠ k := Ne.symm h
  induction m with
  | nil => simp [Memory.write, h']
  | cons cell rest ih =>
    obtain ⟨j, w⟩ := cell
    simp only [Memory.write]
    split
    · simp [h']
    · split
      · subst j; simp [h']
      · simp [ih]

theorem Memory.read_write (m : Memory) (i k : Nat) (v : Elem) :
    Memory.read (Memory.write m i v) k = if k = i then some v else Memory.read m k := by
  split
  · subst k; exact Memory.read_write_same m i v
  · next h => exact Memory.read_write_other m v h

@[simp] theorem Memory.risesFrom_nil (low : Nat) : Memory.risesFrom low [] = true := rfl

@[simp] theorem Memory.risesFrom_cons (low j : Nat) (v : Elem) (m : Memory) :
    Memory.risesFrom low ((j, v) :: m) = true ↔ low ≤ j ∧ Memory.risesFrom (j + 1) m = true := by
  simp [Memory.risesFrom]

theorem Memory.write_risesFrom (m : Memory) {low i : Nat} (v : Elem) (hi : low ≤ i)
    (hm : Memory.risesFrom low m = true) : Memory.risesFrom low (Memory.write m i v) = true := by
  induction m generalizing low with
  | nil => simp [Memory.write, hi]
  | cons cell rest ih =>
    obtain ⟨j, w⟩ := cell
    rw [Memory.risesFrom_cons] at hm
    obtain ⟨hlow, hrest⟩ := hm
    simp only [Memory.write]
    split
    · next hlt => simp only [Memory.risesFrom_cons]; exact ⟨hi, by omega, hrest⟩
    · split
      · next _ heq => subst heq; simp only [Memory.risesFrom_cons]; exact ⟨hi, hrest⟩
      · next hnlt hne => simp only [Memory.risesFrom_cons]; exact ⟨hlow, ih (by omega) hrest⟩

/-- Every write keeps the canonical form. -/
theorem Memory.write_wf (m : Memory) (i : Nat) (v : Elem) (hm : Memory.wf m = true) :
    Memory.wf (Memory.write m i v) = true :=
  Memory.write_risesFrom m v (Nat.zero_le i) hm

@[simp] theorem Memory.wf_nil : Memory.wf [] = true := rfl

/-- Every slot number listed after a write was listed before, or is the one written. -/
theorem Memory.mem_write {m : Memory} {i : Nat} {v : Elem} {cell : Nat × Elem}
    (h : cell ∈ Memory.write m i v) : cell = (i, v) ∨ cell ∈ m := by
  induction m with
  | nil => simpa [Memory.write] using h
  | cons c rest ih =>
    obtain ⟨j, w⟩ := c
    simp only [Memory.write] at h
    split at h
    · simpa using h
    · split at h
      · rcases List.mem_cons.mp h with h | h
        · exact .inl h
        · exact .inr (List.mem_cons_of_mem _ h)
      · rcases List.mem_cons.mp h with h | h
        · exact .inr (h ▸ List.mem_cons_self)
        · rcases ih h with h | h
          · exact .inl h
          · exact .inr (List.mem_cons_of_mem _ h)

/-- Writes below a bound keep every listed slot number below it. -/
theorem Memory.write_below {m : Memory} {i n : Nat} (v : Elem) (hi : i < n)
    (hm : ∀ cell ∈ m, cell.1 < n) : ∀ cell ∈ Memory.write m i v, cell.1 < n := by
  intro cell hc
  rcases Memory.mem_write hc with rfl | hc
  · exact hi
  · exact hm cell hc

/-- A slot number no cell lists reads as no value. -/
theorem Memory.read_eq_none {m : Memory} {n i : Nat} (hm : ∀ cell ∈ m, cell.1 < n) (hi : n ≤ i) :
    Memory.read m i = none := by
  induction m with
  | nil => rfl
  | cons c rest ih =>
    obtain ⟨j, w⟩ := c
    have hj : j < n := hm (j, w) List.mem_cons_self
    rw [Memory.read_cons, if_neg (by omega)]
    exact ih fun cell hc => hm cell (List.mem_cons_of_mem _ hc)

end Sys2Proof.Machine
end

