-- ==== Sys2Proof/Laws/Operands.lean ====
section
/-!
SUPPORT. Pointer arithmetic: the modular increment and the modular distance as plain arithmetic on natural numbers (41_status R72,
R76).
-/

namespace Sys2Proof.Machine

open Sys2Proof

theorem inc_lt {capacity p : Nat} (hp : p < capacity) : inc capacity p < capacity := by
  unfold inc
  split <;> omega

/-- The increment of a counter's residue is the residue of the next count. -/
theorem inc_residue {capacity : Nat} (hc : 0 < capacity) (n : Nat) :
    inc capacity (n % capacity) = (n + 1) % capacity := by
  have hlt := Nat.mod_lt n hc
  have hmod : (n % capacity + 1) % capacity = (n + 1) % capacity := by
    rw [Nat.mod_add_mod]
  unfold inc
  split
  · next h =>
    rw [← hmod, h, Nat.sub_add_cancel (by omega), Nat.mod_self]
  · rw [← hmod, Nat.mod_eq_of_lt (show n % capacity + 1 < capacity by omega)]

/-- The distance between two pointers below the capacity, without a modulus. -/
theorem modDistance_of_lt {capacity a b : Nat} (ha : a < capacity) (hb : b < capacity) :
    modDistance capacity a b = if b ≤ a then a - b else a + capacity - b := by
  unfold modDistance
  split
  · next h =>
    have e : ((a : Int) - b + capacity) = ((a - b : Nat) : Int) + capacity := by omega
    rw [e, Int.add_emod_right]
    have : (((a - b : Nat) : Int) % (capacity : Int)) = ((a - b : Nat) : Int) :=
      Int.emod_eq_of_lt (by omega) (by omega)
    rw [this]
    rfl
  · next h =>
    have e : ((a : Int) - b + capacity) = ((a + capacity - b : Nat) : Int) := by omega
    rw [e, Int.emod_eq_of_lt (by omega) (by omega)]
    rfl

theorem modDistance_lt {capacity a b : Nat} (ha : a < capacity) (hb : b < capacity) :
    modDistance capacity a b < capacity := by
  rw [modDistance_of_lt ha hb]
  split <;> omega

/-- Two counters less than a capacity apart are as far apart as their residues. -/
theorem modDistance_residue {capacity m n : Nat} (hle : n ≤ m) (hlt : m < n + capacity) :
    modDistance capacity (m % capacity) (n % capacity) = m - n := by
  have hc : 0 < capacity := by omega
  have hm := Nat.div_add_mod m capacity
  have hn := Nat.div_add_mod n capacity
  have hmlt := Nat.mod_lt m hc
  have hnlt := Nat.mod_lt n hc
  rw [modDistance_of_lt hmlt hnlt]
  have hq1 : n / capacity ≤ m / capacity := Nat.div_le_div_right hle
  have hq2 : m / capacity ≤ n / capacity + 1 := by
    have : m / capacity ≤ (n + capacity) / capacity := Nat.div_le_div_right hlt.le
    rwa [Nat.add_div_right _ hc] at this
  rcases Nat.eq_or_lt_of_le hq1 with h | h
  · rw [← h] at hm
    split <;> omega
  · have h' : m / capacity = n / capacity + 1 := by omega
    rw [h', Nat.mul_add, Nat.mul_one] at hm
    split <;> omega

/-- Counters less than a capacity apart have equal residues only if they are equal. -/
theorem residue_eq_iff {capacity m n : Nat} (hle : n ≤ m) (hlt : m < n + capacity) :
    m % capacity = n % capacity ↔ m = n := by
  constructor
  · intro h
    have h1 := modDistance_residue hle hlt
    have hc : 0 < capacity := by omega
    rw [h, modDistance_of_lt (Nat.mod_lt n hc) (Nat.mod_lt n hc)] at h1
    simp at h1
    omega
  · rintro rfl
    rfl

end Sys2Proof.Machine
end

