-- ==== Sys2Proof/Laws/PerInstr.lean ====
section
/-!
SUPPORT. Facts about the commands as syntax, one lemma per constructor: the word of a command carries the `op` selector of its row
of the opcode table in bits 33:32 and the command's data in bits 31:0 (30_encoding R49, R50).
-/

namespace Sys2Proof.Laws.WordFields

open Sys2Proof

/-- The two fields of a command's word. -/
def Statement (i : Instr) : Prop :=
  opField (encode i) = i.op ∧ dataField (encode i) = i.data

theorem op_append_data (op : BitVec 2) (data : Elem) :
    opField (op ++ data) = op ∧ dataField (op ++ data) = data := by
  constructor
  · ext k hk
    simp only [opField, BitVec.getElem_extractLsb', BitVec.getLsbD_append]
    rw [if_neg (by omega), show 32 + k - 32 = k by omega, BitVec.getLsbD_eq_getElem]
  · ext k hk
    simp only [dataField, BitVec.getElem_extractLsb', BitVec.getLsbD_append]
    rw [if_pos (by omega), Nat.zero_add, BitVec.getLsbD_eq_getElem]

theorem nop (q : Port) : Statement (.nop q) := op_append_data _ _

theorem put (q : Port) (v : Elem) : Statement (.put q v) := op_append_data _ _

theorem get (q : Port) : Statement (.get q) := op_append_data _ _

theorem reservedOp11 (q : Port) : Statement (.reservedOp11 q) := op_append_data _ _

end Sys2Proof.Laws.WordFields
end

