-- ==== Sys2Proof/Laws/Safety.lean ====
section
/-!
SUPPORT. The well-formedness of a state and of a chain as plain propositions, and a step taken apart event by event for runs of a
list of events.
-/

namespace Sys2Proof.Machine

open Sys2Proof

theorem chainWf_iff {cfg : Cfg} {chain : List Nat} :
    chainWf cfg chain = true ↔
      chain.length = cfg.stages ∧ ∀ g ∈ chain, g < 2 ^ cfg.ptrW ∧ gray2bin cfg.ptrW g < cfg.capacity := by
  simp [chainWf]

theorem wf_iff {s : State} :
    s.wf = true ↔
      s.head < s.cfg.capacity ∧ s.tail < s.cfg.capacity ∧ Memory.wf s.slots = true ∧
        (∀ i v, (i, v) ∈ s.slots → i < s.cfg.capacity) ∧ chainWf s.cfg s.hsync = true ∧
        chainWf s.cfg s.tsync = true := by
  simp [State.wf, and_assoc]

@[simp] theorem wf_setEnv (es : List Event) (s : State) : (setEnv es s).wf = s.wf := rfl

@[simp] theorem wf_respond (r : Resp) (s : State) : (respond r s).wf = s.wf := rfl

/-- The reset state's slot storage has the canonical form. -/
theorem resetOf_slots_wf (cfg : Cfg) : Memory.wf (State.resetOf cfg).slots = true := rfl

/-- On a well-formed state every command has an effect. -/
theorem Effect.exists_of_wf {s : State} (h : s.wf = true) (i : Instr) : ∃ t, Effect i s t := by
  obtain ⟨hhead, htail, -⟩ := wf_iff.mp h
  cases hv : i.verdict with
  | some code => exact ⟨_, .illegal i s code hv⟩
  | none =>
    cases i with
    | nop q => exact ⟨_, .nop q s⟩
    | put q v =>
      cases q with
      | p =>
        cases hf : pFull s with
        | true => exact ⟨_, .full v s hf⟩
        | false => exact ⟨_, .stored v s hf htail⟩
      | c => cases hv
    | get q =>
      cases q with
      | p => cases hv
      | c =>
        cases he : cEmpty s with
        | true => exact ⟨_, .empty s he⟩
        | false =>
          cases hr : Memory.read s.slots s.head with
          | none => exact ⟨_, .unwritten s he hhead hr⟩
          | some v => exact ⟨_, .taken v s he hhead hr⟩
    | reservedOp11 q => cases hv

/-- A history speaks only of the parameters, the cursors, the slots and the chains. -/
theorem History.Holds.congr {h : History} {s t : State} (hs : h.Holds s) (hcfg : t.cfg = s.cfg)
    (hhead : t.head = s.head) (htail : t.tail = s.tail) (hslots : t.slots = s.slots) (hh : t.hsync = s.hsync)
    (ht : t.tsync = s.tsync) : h.Holds t := by
  obtain ⟨h1, h2, h3, h4, h5, h6, h7, h8, h9, h10, h11, h12⟩ := hs
  constructor <;> simp_all

theorem getLastD_le {newest : Nat} {older : List Nat}
    (h : (newest :: older).Pairwise fun a b => b ≤ a) : older.getLastD newest ≤ newest := by
  rw [List.getLastD_eq_getLast?]
  cases hl : older.getLast? with
  | none => exact le_refl _
  | some x => exact (List.pairwise_cons.mp h).1 x (List.mem_of_getLast? hl)

/-- The order of the counters at the ends of both chains (42_cdc R91). -/
theorem History.Holds.bounds {h : History} {s : State} (hs : h.Holds s) :
    h.nh.getLastD h.nc ≤ h.nc ∧ h.nc ≤ h.nt.getLastD h.np ∧ h.nt.getLastD h.np ≤ h.np ∧
      h.np ≤ h.nh.getLastD h.nc + (s.cfg.capacity - 1) :=
  ⟨getLastD_le hs.nh_order, hs.nc_le, getLastD_le hs.nt_order, hs.np_le⟩

/-- The run of no event. -/
theorem runEvents_nil (s : State) : runEvents [] s = .next (setEnv [] s) := rfl

/-- The first step of a run of events, and the run of the rest. -/
theorem runEvents_cons (e : Event) (es : List Event) (s : State) :
    runEvents (e :: es) s =
      match perform e (setEnv es s) with
      | .next t => Host.Core.run Sys2Proof.core es.length t
      | .fault r => .fault r
      | .refused r => .refused r := by
  have h : Sys2Proof.core.step (setEnv (e :: es) s) = perform e (setEnv es s) := rfl
  unfold runEvents
  simp only [List.length_cons, Host.Core.run, h]
  cases perform e (setEnv es s) <;> rfl

end Sys2Proof.Machine
end

