-- ==== Sys2Proof/Tests/Slice0.lean ====
section
/-!
SUPPORT. Small tests with expected results from spec/95_test_vectors.md or from a rule, and for each statement with hypotheses a
named witness that meets them.
-/

namespace Sys2Proof.Tests

open Sys2Proof Sys2Proof.Machine

/-! ### Helpers -/

def cap2 : Cfg := { capacity := 2, cdc := false, syncStages := 0, accepted := by decide }
def cap4 : Cfg := { capacity := 4, cdc := false, syncStages := 0, accepted := by decide }
def cap5 : Cfg := { capacity := 5, cdc := false, syncStages := 0, accepted := by decide }
def cdc2 : Cfg := { capacity := 2, cdc := true, syncStages := 2, accepted := by decide }
def cdc4 : Cfg := { capacity := 4, cdc := true, syncStages := 2, accepted := by decide }

/-- A state as 95, section 1 writes it: cursors and slots, the rest as at reset. -/
def st (cfg : Cfg) (head tail : Nat) (slots : Memory) : State :=
  { State.resetOf cfg with head := head, tail := tail, slots := slots }

/-- The outcome is the next state `t`. -/
def goesTo (o : Host.Outcome State Fault Refusal) (t : State) : Bool :=
  match o with
  | .next u => u == t
  | _ => false

/-- The state after a step, or the state itself where there is none. -/
def after (s : State) : State :=
  match step s with
  | .next t => t
  | _ => s

/-! ### Well-formedness: what each check refuses -/

theorem test_wf_put_on_c : (Instr.put .c 1#32).wf = false := by decide
theorem test_wf_get_on_p : (Instr.get .p).wf = false := by decide
theorem test_wf_reserved : (Instr.reservedOp11 .p).wf = false := by decide
theorem test_wf_legal : (Instr.nop .c).wf = true ∧ (Instr.put .p 1#32).wf = true ∧ (Instr.get .c).wf = true := by decide
theorem test_wf_head_too_big : (st cap5 5 0 []).wf = false ∧ (st cap5 4 0 []).wf = true := by decide
theorem test_wf_slots_not_rising : (st cap5 0 0 [(1, 1#32), (0, 2#32)]).wf = false := by decide
theorem test_wf_slot_too_big : (st cap5 0 0 [(5, 1#32)]).wf = false := by decide
theorem test_wf_chain_length : ({ st cdc4 0 0 [] with hsync := [0] } : State).wf = false := by decide

/-! ### Configuration (95, 2.8) -/

theorem test_cfg_refusals :
    cfgRefusal 0 false 0 = some .capacity ∧ cfgRefusal 1 false 0 = some .capacity ∧
    cfgRefusal 2 false 0 = none ∧ cfgRefusal 5 false 0 = none ∧
    cfgRefusal 6 true 2 = some .cdcCapacity ∧ cfgRefusal 8 true 1 = some .syncStages ∧
    cfgRefusal 1 true 1 = some .capacity ∧ cfgRefusal 2 true 2 = none ∧ cfgRefusal 4 true 3 = none := by decide

/-! ### Decoding and encoding (95, 2.2; 30_encoding R58) -/

theorem test_decode_nop : decode .p 0b0011011110101011011011111011101111#34 = .nop .p := by decide
theorem test_decode_put : decode .p 0b0100000000000000000000000000000101#34 = .put .p 5#32 := by decide
theorem test_decode_put_all_ones :
    decode .p 0b0111111111111111111111111111111111#34 = .put .p 0xFFFFFFFF#32 := by decide
theorem test_decode_get : decode .c 0b1000010010001101000101011001111000#34 = .get .c := by decide
theorem test_decode_reserved : decode .c 0b1100000000000000000000000000000000#34 = .reservedOp11 .c := by decide
theorem test_encode_put : encode (.put .p 5#32) = 0x100000005#34 ∧ encode (.nop .p) = 0x000000000#34 ∧
    encode (.get .c) = 0x200000000#34 := by decide
theorem test_table_words :
    decodeTableWord 40 0x000000000 = some (.nop .p) ∧ decodeTableWord 40 0x100000007 = some (.put .p 7#32) ∧
    decodeTableWord 40 0x200000000 = some (.get .c) ∧ decodeTableWord 40 0x300000000 = some (.reservedOp11 .p) ∧
    decodeTableWord 40 0x400000000 = none := by decide

/-! ### The commands (95, 2.3 to 2.7) -/

theorem test_nop_on_c : goesTo (exec (.nop .c) (st cap2 0 0 [])) (st cap2 0 0 []) = true := by decide

theorem test_put_wraps_tail :
    goesTo (exec (.put .p 8#32) (st cap5 2 4 [(0, 0#32), (1, 1#32), (2, 2#32), (3, 7#32)]))
      { st cap5 2 0 [(0, 0#32), (1, 1#32), (2, 2#32), (3, 7#32), (4, 8#32)] with
        out := { pOk := true, cOk := false, cData := none } } = true := by decide

theorem test_put_full :
    goesTo (exec (.put .p 10#32) (st cap5 2 1 [(0, 9#32), (1, 1#32), (2, 2#32), (3, 7#32), (4, 8#32)]))
      (st cap5 2 1 [(0, 9#32), (1, 1#32), (2, 2#32), (3, 7#32), (4, 8#32)]) = true := by decide

theorem test_get_wraps_head :
    goesTo (exec (.get .c) (st cap5 4 1 [(0, 9#32), (1, 1#32), (2, 2#32), (3, 7#32), (4, 8#32)]))
      { st cap5 0 1 [(0, 9#32), (1, 1#32), (2, 2#32), (3, 7#32), (4, 8#32)] with
        out := { pOk := false, cOk := true, cData := some 8#32 } } = true := by decide

theorem test_get_unwritten :
    goesTo (exec (.get .c) (st cap4 0 1 [])) { st cap4 0 1 [] with fault := some (.unwrittenSlot, .c) } = true := by
  decide

theorem test_reserved_faults :
    goesTo (exec (.reservedOp11 .p) (st cap4 0 0 [])) { st cap4 0 0 [] with fault := some (.illegalOp, .p) } = true := by
  decide

/-! ### Steps: both ports, synchronisers, faults (95, 2.6, 2.7, 2.10) -/

theorem test_both_ports_full :
    goesTo (step { st cap2 0 1 [(0, 7#32)] with env := [.cycle 0x100000008#34 0x200000000#34] })
      { st cap2 1 1 [(0, 7#32)] with out := { pOk := false, cOk := true, cData := some 7#32 } } = true := by decide

theorem test_port_p_fault_first :
    goesTo (step { st cap4 0 1 [(0, 5#32)] with env := [.cycle 0x300000000#34 0x100000000#34] })
      { st cap4 0 1 [(0, 5#32)] with fault := some (.illegalOp, .p) } = true := by decide

theorem test_spurious_empty :
    goesTo (exec (.get .c) (st cdc4 0 3 [(0, 10#32), (1, 11#32), (2, 12#32)]))
      (st cdc4 0 3 [(0, 10#32), (1, 11#32), (2, 12#32)]) = true := by decide

theorem test_st_samples_gray :
    (after { st cdc4 0 3 [(0, 10#32), (1, 11#32), (2, 12#32)] with env := [.stepST] }).tsync = [0b10, 0b00] := by decide

theorem test_gray_table :
    (List.range 8).map bin2gray = [0b000, 0b001, 0b011, 0b010, 0b110, 0b111, 0b101, 0b100] ∧
    gray2bin 3 0b101 = 6 := by decide

theorem test_counts :
    cCount (st cap5 4 0 []) = 1 ∧ cCount (st cap5 3 2 []) = 4 ∧ pFull (st cap5 3 2 []) = true ∧
    pFull (st cap2 1 0 []) = true ∧ cEmpty (st cap2 1 1 []) = true ∧ pCount (st cap4 3 1 []) = 2 := by decide

theorem test_placed_word_runs_first :
    goesTo (step (State.reset.withFetchWord 40 0x100000007))
      { State.reset with
        slots := [(0, 7#32)], tail := 1, out := { pOk := true, cOk := false, cData := none } } = true := by decide

theorem test_assembler_line :
    (assemble [['P', ':'], ['p', 'u', 't', ' ', '-', '1', ' ', ';', 'x'],
      ['C', ':', ' ', 'g', 'e', 't', '!']]).toOption = some { p := [.put 0xFFFFFFFF#32], c := [.getRetry] } := by decide

/-- 70_reset_and_hazards R111, R114: the first reset may come with words on the ports, which are ignored; a command may not. -/
theorem test_first_reset_ignores_words :
    hostStep (.present (.rst 0x100000001#34 0x300000000#34)) (.built cap2) = .next (.running (Run.begin cap2)) ∧
    hostStep (.present (.stepP 0x100000001#34)) (.built cap2) = .refused .beforeFirstReset := ⟨rfl, rfl⟩

/-- 70_reset_and_hazards R121: after a PUT, a reset takes the script back to it and the element is lost. -/
theorem test_reset_discards_places :
    (match Bench.play [.p, .rst] (Bench.begin cap2 { p := [.put 1#32, .nop], c := [] }) with
      | .next b => b == Bench.begin cap2 { p := [.put 1#32, .nop], c := [] }
      | _ => false) = true := by decide

/-! ### Witnesses: a state and operands that meet the hypotheses of each statement -/

/-- One element resident in the last slot, without CDC. -/
def oneResident : State := st cap2 1 0 [(0, 7#32), (1, 9#32)]

theorem holds_reset2 : History.Holds { puts := [], gots := [], nh := [], nt := [] } (st cap2 0 0 []) := by
  constructor <;> simp [st, cap2, History.np, History.nc, Cfg.stages]

theorem inv_reset2 : (st cap2 0 0 []).Inv := ⟨by decide, _, holds_reset2⟩

theorem holds_oneResident :
    History.Holds { puts := [7#32, 9#32], gots := [7#32], nh := [], nt := [] } oneResident := by
  constructor <;> simp [oneResident, st, cap2, History.np, History.nc, Cfg.stages]
  intro j h1 h2
  have : j = 1 := by omega
  subst this
  decide

theorem inv_oneResident : oneResident.Inv := ⟨by decide, _, holds_oneResident⟩

theorem holds_cdc2 : History.Holds (History.begin cdc2) (st cdc2 0 0 []) := by
  constructor <;> simp [st, cdc2, History.begin, History.np, History.nc, Cfg.stages] <;> decide

theorem inv_cdc2 : (st cdc2 0 0 []).Inv := ⟨by decide, _, holds_cdc2⟩

/-- A reachable state with CDC: one PUT from reset. -/
theorem reached_cdc2 :
    Execution ((History.begin cdc2).advance (some (.stepP 0x100000001#34))
        (after (setEnv [.stepP 0x100000001#34] (State.resetOf cdc2))))
      (after (setEnv [.stepP 0x100000001#34] (State.resetOf cdc2))) :=
  .step (.reset cdc2 [.stepP 0x100000001#34]) rfl

theorem witness_ElaborationRefusesInOrder :
    (1 < 2) ∧ (2 ≤ 6 ∧ ¬ ∃ k, 6 = 2 ^ k) ∧ (2 ≤ 2 ∧ (∃ k, 2 = 2 ^ k) ∧ 1 < 2) ∧ (2 ≤ 2 ∧ (∃ k, 2 = 2 ^ k) ∧ 2 ≤ 2) := by
  refine ⟨by omega, ⟨by omega, ?_⟩, ⟨by omega, ⟨1, rfl⟩, by omega⟩, ⟨by omega, ⟨1, rfl⟩, by omega⟩⟩
  rintro ⟨k, hk⟩
  rcases k with _ | _ | _ | k
  · omega
  · omega
  · omega
  · have : 2 ^ (k + 3) = 8 * 2 ^ k := by ring
    have := Nat.one_le_two_pow (n := k)
    omega

theorem witness_PlacedWordRunsInTheNextStep :
    decodeTableWord 34 (2 ^ 34 - 1) = some (.reservedOp11 .p) ∧ decodeTableWord 34 0 = some (.nop .p) := by decide

theorem witness_StepRunsTheDecodedCommand :
    opField 0x0FFFFFFFF#34 = 0b00#2 ∧ (State.resetOf cap2).cfg.cdc = false ∧ (State.resetOf cap2).env = [] ∧
    (setEnv [.stepP 0x100000001#34] (State.resetOf cap2)).env = [.stepP 0x100000001#34] ∧
    (setEnv [.stepC 0x200000000#34] (State.resetOf cap2)).env = [.stepC 0x200000000#34] ∧
    (setEnv [.cycle 0x100000001#34 0#34] (State.resetOf cap2)).env = [.cycle 0x100000001#34 0#34] ∧
    (setEnv [.cycle 0#34 0x200000000#34] (State.resetOf cap2)).env = [.cycle 0#34 0x200000000#34] := by decide

theorem witness_NopCompletesAndWritesNothing : (State.resetOf cap2).fault = none := rfl

/-- Room and full, at the last slot. -/
theorem witness_PutStoresOrReportsFull :
    ((st cap5 2 4 []).fault = none ∧ (st cap5 2 4 []).tail < 5 ∧ (4 + 1) % 5 ≠ hview (st cap5 2 4 [])) ∧
    ((st cap5 0 4 []).fault = none ∧ (st cap5 0 4 []).tail < 5 ∧ (4 + 1) % 5 = hview (st cap5 0 4 [])) := by decide

/-- Empty, unwritten and written, at the last slot. -/
theorem witness_GetTakesOrReportsEmpty :
    ((st cap5 4 4 []).fault = none ∧ (st cap5 4 4 []).head < 5 ∧ (st cap5 4 4 []).head = tview (st cap5 4 4 [])) ∧
    ((st cap5 4 0 []).head ≠ tview (st cap5 4 0 []) ∧ Memory.read (st cap5 4 0 []).slots 4 = none) ∧
    ((st cap5 4 0 [(4, 1#32)]).head ≠ tview (st cap5 4 0 [(4, 1#32)]) ∧
      Memory.read (st cap5 4 0 [(4, 1#32)]).slots 4 = some 1#32) := by decide

theorem witness_ReservedWordRaisesIllegalOp :
    opField 0x300000000#34 = 0b11#2 ∧ (State.resetOf cap2).fault = none ∧
    (setEnv [.stepC 0x300000000#34] (State.resetOf cap2)).env = [presentOn .c 0x300000000#34] := by decide

theorem witness_WrongPortRaisesPortRole :
    (State.resetOf cap2).fault = none ∧
    (opField 0x1FFFFFFFF#34 = 0b01#2 ∧
      (setEnv [.stepC 0x1FFFFFFFF#34] (State.resetOf cap2)).env = [.stepC 0x1FFFFFFFF#34]) ∧
    (opField 0x200000000#34 = 0b10#2 ∧
      (setEnv [.stepP 0x200000000#34] (State.resetOf cap2)).env = [.stepP 0x200000000#34]) := by decide

theorem witness_UnwrittenSlotFaultsAndIsUnreachable :
    ((st cap4 3 0 []).fault = none ∧ (st cap4 3 0 []).head < 4 ∧ cEmpty (st cap4 3 0 []) = false ∧
      Memory.read (st cap4 3 0 []).slots 3 = none) ∧
    ∃ h s, Execution h s ∧ s.tail = 1 :=
  ⟨by decide, _, _, reached_cdc2, by decide⟩

theorem witness_ImpossibleStepsStopByName :
    ((st cap4 0 4 []).fault = none ∧ 4 ≤ (st cap4 0 4 []).tail ∧ pFull (st cap4 0 4 []) = false) ∧
    ((st cap4 4 0 []).fault = none ∧ 4 ≤ (st cap4 4 0 []).head ∧ cEmpty (st cap4 4 0 []) = false) ∧
    ((State.resetOf cdc2).cfg.cdc = true ∧
      (setEnv [.cycle 0#34 0#34] (State.resetOf cdc2)).env = [.cycle 0#34 0#34]) ∧
    ((State.resetOf cap2).cfg.cdc = false ∧ (setEnv [.stepSH] (State.resetOf cap2)).env = [.stepSH] ∧
      (setEnv [.stepST] (State.resetOf cap2)).env = [.stepST]) := by decide

theorem witness_NopAndReservedFrame :
    (∃ t, exec (.nop .c) (st cap2 0 0 []) = .next t) ∧ ∃ t, exec (.reservedOp11 .c) (st cap2 0 0 []) = .next t :=
  ⟨⟨_, rfl⟩, ⟨_, rfl⟩⟩

/-- A PUT that stores, one that observes full, one on the wrong port. -/
theorem witness_PutFrame :
    (∃ t, exec (.put .p 1#32) (st cap2 0 0 []) = .next t ∧ t.out.pOk = true) ∧
    (∃ t, exec (.put .p 1#32) (st cap2 0 1 []) = .next t ∧ t.out.pOk = false) ∧
    ∃ t, exec (.put .c 1#32) (st cap2 0 0 []) = .next t :=
  ⟨⟨_, rfl, rfl⟩, ⟨_, rfl, rfl⟩, ⟨_, rfl⟩⟩

/-- A GET that takes, one that observes empty, one on the wrong port. -/
theorem witness_GetFrame :
    (∃ t, exec (.get .c) oneResident = .next t ∧ t.out.cOk = true) ∧
    (∃ t, exec (.get .c) (st cap2 1 1 []) = .next t ∧ t.out.cOk = false ∧ cEmpty (st cap2 1 1 []) = true) ∧
    ∃ t, exec (.get .p) oneResident = .next t :=
  ⟨⟨_, rfl, rfl⟩, ⟨_, rfl, rfl, rfl⟩, ⟨_, rfl⟩⟩

theorem witness_EachCursorHasOneWriter :
    (∃ t, step (setEnv [.stepP 0x100000001#34] (st cap2 0 0 [])) = .next t ∧ t.out.pOk = true) ∧
    (∃ t, step (setEnv [.stepC 0x200000000#34] oneResident) = .next t ∧ t.out.cOk = true) ∧
    (Event.stepP 0x100000001#34).isReset = false ∧ (Event.stepC 0x200000000#34).isReset = false :=
  ⟨⟨_, rfl, rfl⟩, ⟨_, rfl, rfl⟩, rfl, rfl⟩

theorem witness_StepNeverChangesParameters : ∃ t, step (st cap2 0 0 []) = .next t := ⟨_, rfl⟩

theorem witness_IncrementIsModular : (4 < cap5.capacity) ∧ (3 < cdc4.capacity ∧ cdc4.capacity = 2 ^ cdc4.ptrW) := by decide

theorem witness_ViewsFollowTheConfiguration :
    ((st cap5 4 0 []).wf = true ∧ cap5.cdc = false) ∧ ((st cdc4 3 0 []).wf = true ∧ cdc4.cdc = true) := by decide

/-- Empty, full and neither; a resident slot that is written and one that is not. -/
theorem witness_StatusIsTheFailureCondition :
    ((st cap5 4 4 []).wf = true ∧ (st cap5 4 4 []).fault = none ∧ cEmpty (st cap5 4 4 []) = true ∧
      pFull (st cap5 4 4 []) = false) ∧
    ((st cap5 0 4 [(0, 1#32)]).wf = true ∧ cEmpty (st cap5 0 4 [(0, 1#32)]) = false ∧
      pFull (st cap5 0 4 [(0, 1#32)]) = true) := by decide

theorem witness_CountsAreModularDifferences :
    ((st cap5 4 0 []).wf = true ∧ cap5.cdc = false) ∧ (st cap5 0 4 []).wf = true ∧ (st cdc4 3 3 []).wf = true := by decide

theorem witness_EmptyAndFullExcludeEachOther :
    ((st cap5 4 3 []).wf = true ∧ cap5.cdc = false) ∧ ((st cap2 1 0 []).wf = true ∧ cap2.capacity = 2) := by decide

theorem witness_StatusIsTrueWithoutCdc :
    ∃ h : History, h.Holds oneResident ∧ oneResident.wf = true ∧ oneResident.cfg.cdc = false :=
  ⟨_, holds_oneResident, by decide, rfl⟩

theorem witness_CountsBracketTheTrueCount :
    (oneResident.Inv ∧ oneResident.cfg.cdc = false) ∧ (st cdc2 0 0 []).Inv :=
  ⟨⟨inv_oneResident, rfl⟩, inv_cdc2⟩

theorem witness_GrayCodeBits : 7 < 2 ^ (2 + 1) ∧ 0 < 2 ^ (0 + 1) := by decide

theorem witness_GrayDecodingInvertsEncoding : 4 < 2 ^ (2 + 1) ∧ 1 < 2 ^ (0 + 1) := by decide

/-- The wrap and the narrowest width. -/
theorem witness_GrayChangesOneBitPerIncrement : (1 ≤ 3 ∧ 7 < 2 ^ 3) ∧ (1 ≤ 1 ∧ 1 < 2 ^ 1) := by decide

theorem witness_SynchroniserStepsShift :
    (setEnv [.stepSH] (st cdc4 3 0 [])).wf = true ∧ cdc4.cdc = true ∧ (st cdc4 3 0 []).fault = none ∧
    (setEnv [.stepSH] (st cdc4 3 0 [])).env = [.stepSH] ∧ (setEnv [.stepST] (st cdc4 3 0 [])).env = [.stepST] := by decide

theorem witness_ClockEdgeIsCommandThenShift :
    (∃ t, exec (.put .p 1#32) (st cdc2 0 0 []) = .next t ∧ t.fault = none) ∧
    (∃ t, exec (.get .c) (st cdc2 0 0 []) = .next t ∧ t.fault = none) ∧ cdc2.cdc = true :=
  ⟨⟨_, rfl, rfl⟩, ⟨_, rfl, rfl⟩, rfl⟩

theorem witness_StatusIsConservative : oneResident.Inv ∧ (st cdc2 0 0 []).Inv := ⟨inv_oneResident, inv_cdc2⟩

/-- Exactly SYNC_STAGES steps of each synchroniser. -/
theorem witness_ViewsCatchUpAfterSyncStages :
    (st cdc2 1 1 []).wf = true ∧ cdc2.cdc = true ∧
    (∃ t, runEvents [.stepSH, .stepST, .stepSH, .stepST] (st cdc2 1 1 []) = .next t) ∧
    cdc2.syncStages ≤ [Event.stepSH, .stepST, .stepSH, .stepST].count .stepSH ∧
    cdc2.syncStages ≤ [Event.stepSH, .stepST, .stepSH, .stepST].count .stepST ∧
    (∀ e ∈ [Event.stepSH, .stepST, .stepSH, .stepST], e.isReset = false) ∧
    (∀ e ∈ [Event.stepSH, .stepST, .stepSH, .stepST], e.cInstr ≠ some (.get .c)) ∧
    ∀ e ∈ [Event.stepSH, .stepST, .stepSH, .stepST], ∀ v, e.pInstr ≠ some (.put .p v) := by
  refine ⟨by decide, rfl, ⟨_, rfl⟩, by decide, by decide, by decide, by decide, ?_⟩
  intro e he v
  simp only [List.mem_cons, List.not_mem_nil, or_false] at he
  rcases he with rfl | rfl | rfl | rfl <;> simp [Event.pInstr]

/-- On an empty and on a full block. -/
theorem witness_SimultaneousPutAndGetMerge :
    ((st cap2 0 0 []).Inv ∧ oneResident.Inv ∧ cap2.cdc = false ∧ oneResident.fault = none) ∧
    decode .p 0x100000008#34 = .put .p 8#32 ∧ decode .c 0x200000000#34 = .get .c :=
  ⟨⟨inv_reset2, inv_oneResident, rfl, rfl⟩, by decide, by decide⟩

theorem witness_SimultaneousStepEqualsASerialOne :
    ((st cap2 0 0 []).Inv ∧ pFull (st cap2 0 0 []) = false) ∧ (oneResident.Inv ∧ cEmpty oneResident = false) ∧
    decode .p 0x100000008#34 = .put .p 8#32 ∧ decode .c 0x200000000#34 = .get .c :=
  ⟨⟨inv_reset2, by decide⟩, ⟨inv_oneResident, by decide⟩, by decide, by decide⟩

theorem witness_FaultEntryIsPrecise :
    ∃ t, step (setEnv [.stepP 0x300000000#34] (st cap2 0 0 [])) = .next t ∧ t.fault ≠ none :=
  ⟨_, rfl, by decide⟩

theorem witness_FaultPriority :
    ((st cap4 0 1 []).wf = true ∧ (st cap4 0 1 []).fault = none ∧ cap4.cdc = false) ∧
    (decode .p 0x300000000#34).verdict = some .illegalOp ∧
    ((decode .p 0x100000000#34).verdict = none ∧ (decode .c 0x100000000#34).verdict = some .portRole) ∧
    (decode .c 0x200000000#34 = .get .c ∧ cEmpty (st cap4 0 1 []) = false ∧
      Memory.read (st cap4 0 1 []).slots 0 = none) ∧ opField 0x3FFFFFFFF#34 = 0b11#2 := by decide

theorem witness_FaultedBlockTakesNoStepUntilReset :
    (raiseFault .portRole .c (st cap2 0 0 [])).fault = some (.portRole, .c) ∧
    ((Event.cycle 0#34 0#34).isAgentStep = true ∧ (Event.cycle 0#34 0#34).possible cap2 = true) ∧
    (∃ t, step (setEnv [.rst 0#34 0#34] (raiseFault .portRole .c (st cap2 0 0 []))) = .next t) ∧
    (raiseFault .portRole .c (st cap2 0 0 [])).env = [] :=
  ⟨rfl, by decide, ⟨_, rfl⟩, rfl⟩

theorem witness_FaultOutputsShowTheRegister :
    (st cap2 0 0 []).fault = none ∧ (raiseFault .illegalOp .p (st cap2 0 0 [])).fault = some (.illegalOp, .p) ∧
    (raiseFault .portRole .c (st cap2 0 0 [])).fault = some (.portRole, .c) ∧
    (raiseFault .unwrittenSlot .c (st cap2 0 0 [])).fault = some (.unwrittenSlot, .c) ∧ 0x4#4 ≤ 0x4#4 := by decide

theorem witness_ResetValues : cdc4.cdc = true ∧ cap5.cdc = false := by decide

theorem witness_ResetStepRestoresEverything :
    (setEnv [.rst 0x300000000#34 0x200000000#34] (raiseFault .illegalOp .p oneResident)).env =
        [.rst 0x300000000#34 0x200000000#34] ∧
      (raiseFault .illegalOp .p oneResident).fault ≠ none ∧
      ∃ t, step (setEnv [.rst 0x300000000#34 0x200000000#34] (raiseFault .illegalOp .p oneResident)) = .next t ∧
        t.fault = none :=
  ⟨rfl, by decide, _, rfl, rfl⟩

theorem witness_PartialResetIsRefused :
    (setEnv [.rstPart .producerDomain] (st cdc2 0 0 [])).env = [.rstPart .producerDomain] ∧
    Life.built cdc2 ≠ .unbuilt ∧ Life.running (Run.begin cdc2) ≠ .unbuilt := by decide

/-- A step that completes, one that stops on a fault and one that is refused, each on a running block. -/
theorem witness_LifecycleOrder :
    (∃ cfg, elaborate 2 false 0 = .next cfg) ∧ (∃ why, elaborate 1 false 0 = .refused why) ∧
    (Event.stepP 0x100000001#34).isAgentStep = true ∧
    (∃ t, step (setEnv [.stepP 0x100000001#34] (State.resetOf cap2)) = .next t) ∧
    (∃ f, step (setEnv [.stepP 0#34] (raiseFault .portRole .c (State.resetOf cap2))) = .fault f) ∧
    ∃ f, step (setEnv [.stepSH] (State.resetOf cap2)) = .refused f :=
  ⟨⟨_, rfl⟩, ⟨_, rfl⟩, rfl, ⟨_, rfl⟩, ⟨_, rfl⟩, ⟨_, rfl⟩⟩

theorem witness_ResponsesBelongToTheirStep :
    (∃ t, step (setEnv [.stepC 0x200000000#34] oneResident) = .next t ∧ t.out.cOk = true) ∧
    (∃ t, step (setEnv [.stepC 0x200000000#34] (st cap2 0 0 [])) = .next t ∧ t.out.cOk = false) ∧
    ∃ t, step (setEnv [.stepP 0x100000001#34] (st cap2 0 0 [])) = .next t ∧ t.out.pOk = true :=
  ⟨⟨_, rfl, rfl⟩, ⟨_, rfl, rfl⟩, ⟨_, rfl, rfl⟩⟩

theorem witness_StepKeepsWellFormed :
    oneResident.wf = true ∧ ∃ t, step (setEnv [.stepC 0x200000000#34] oneResident) = .next t :=
  ⟨by decide, _, rfl⟩

theorem witness_StepKeepsHistory :
    oneResident.wf = true ∧ (∃ h : History, h.Holds oneResident) ∧ ∃ t, step oneResident = .next t :=
  ⟨by decide, ⟨_, holds_oneResident⟩, _, rfl⟩

/-- For `CursorsCountPutsAndGets` and `FifoOrder`. -/
theorem witness_CursorsCountPutsAndGets : ∃ h s, Execution h s ∧ s.cfg.cdc = false :=
  ⟨_, _, .reset cap2 [], rfl⟩

theorem witness_FifoOrder : ∃ h s, Execution h s ∧ h.puts = [1#32] := ⟨_, _, reached_cdc2, by decide⟩

theorem witness_CrossingCountersAreOrdered :
    ∃ h s, Execution h s ∧ s.cfg.cdc = true ∧ h.nh[s.cfg.syncStages - 1]? = some 0 ∧ h.np = 1 :=
  ⟨_, _, reached_cdc2, by decide, by decide, by decide⟩

theorem witness_CapacityLaw :
    (∃ h s, Execution h s ∧ countTrue s = 1) ∧
    (oneResident.Inv ∧ oneResident.fault = none ∧ countTrue oneResident = oneResident.cfg.capacity - 1) ∧
    ((st cap2 0 0 []).Inv ∧ countTrue (st cap2 0 0 []) = 0) ∧
    (cap2.capacity = 2 ∧ ∃ t, exec (.put .p 1#32) (st cap2 0 0 []) = .next t ∧ t.out.pOk = true) :=
  ⟨⟨_, _, reached_cdc2, by decide⟩, ⟨inv_oneResident, rfl, by decide⟩, ⟨inv_reset2, by decide⟩, rfl, _, rfl, rfl⟩

theorem witness_LiveSlotsHoldValues :
    oneResident.Inv ∧ 1 < oneResident.cfg.capacity ∧
    ((1 : Int) - oneResident.head) % oneResident.cfg.capacity <
      ((oneResident.tail : Int) - oneResident.head) % oneResident.cfg.capacity :=
  ⟨inv_oneResident, by decide, by decide⟩

/-- One element resident in slot 2 of four, with room: the slot before the wrap is stored to. -/
def oneOfFour : State := st cap4 2 3 [(0, 5#32), (1, 6#32), (2, 7#32)]

theorem holds_oneOfFour :
    History.Holds { puts := [5#32, 6#32, 7#32], gots := [5#32, 6#32], nh := [], nt := [] } oneOfFour := by
  constructor <;> simp [oneOfFour, st, cap4, History.np, History.nc, Cfg.stages]
  intro j h1 h2
  have : j = 2 := by omega
  subst this
  decide

theorem inv_oneOfFour : oneOfFour.Inv := ⟨by decide, _, holds_oneOfFour⟩

/-- A readable slot, a view that leaves room, a live slot under a PUT that stores and under one that observes full. -/
theorem witness_NoUnpublishedReadNoOverwrite :
    (oneResident.Inv ∧ modDistance 2 1 oneResident.head < cCount oneResident) ∧
    (oneOfFour.Inv ∧ pFull oneOfFour = false ∧ isLive oneOfFour 2 = true ∧
      ∃ t, exec (.put .p 8#32) oneOfFour = .next t ∧ t.out.pOk = true) ∧
    (isLive oneResident 1 = true ∧ ∃ t, exec (.put .p 8#32) oneResident = .next t ∧ t.out.pOk = false) :=
  ⟨⟨inv_oneResident, by decide⟩, ⟨inv_oneOfFour, by decide, by decide, _, rfl, rfl⟩, by decide, _, rfl, rfl⟩

theorem witness_LegalCommandsNeverFault :
    oneResident.Inv ∧ oneResident.fault = none ∧
    (Event.cycle 0x100000001#34 0x200000000#34).possible oneResident.cfg = true ∧
    (Event.cycle 0x100000001#34 0x200000000#34).commandsLegal = true :=
  ⟨inv_oneResident, rfl, by decide, by decide⟩

/-- Slot 0 of `oneResident` is not live: its content may differ. -/
theorem witness_NonLiveSlotsNeverShow :
    oneResident.Inv ∧ isLive oneResident 0 = false ∧ isLive oneResident 1 = true ∧
    Memory.read [(0, 5#32), (1, 9#32)] 1 = Memory.read oneResident.slots 1 ∧ ∃ t, step oneResident = .next t :=
  ⟨inv_oneResident, by decide, by decide, by decide, _, rfl⟩

theorem witness_AssemblerEncodesCommands :
    (-2147483648 : Int) ≤ -2147483648 ∧ (2147483647 : Int) ≤ 2147483647 ∧ (2147483647 : Int) < 2147483648 ∧
    (-2147483649 : Int) < -2147483648 ∧ 0xFFFFFFFF ≤ 0xFFFFFFFF ∧ 0xFFFFFFFF < 0x100000000 := by decide

theorem witness_ScriptsAdvanceByResponse :
    (Script.mk [.putRetry 1#32] 0).cmds[0]? = some (.putRetry 1#32) ∧
    (Script.mk [.getRetry] 0).cmds[0]? = some .getRetry ∧ (Script.mk [.nop] 0).cmds[0]? = some .nop ∧
    (Script.mk [.nop] 1).cmds.length ≤ 1 := by decide

/-- Ends with nothing left, with a reset pending whose words are NOP, and not with one that presents a PUT; the last slot; a step
that completes. -/
theorem witness_EndOfRunObservation :
    (Run.begin cap2).endsSuccessfully = true ∧
    ({ Run.begin cap2 with state := setEnv [.rst 0#34 0#34] (State.resetOf cap2) } : Run).endsSuccessfully = true ∧
    ({ Run.begin cap2 with state := setEnv [.rst 0x100000001#34 0#34] (State.resetOf cap2) } : Run).endsSuccessfully = false ∧
    1 < (Run.begin cap2).state.cfg.capacity ∧
    ∃ t, step (setEnv [.stepP 0x100000001#34] (Run.begin cap2).state) = .next t :=
  ⟨by decide, by decide, by decide, by decide, _, rfl⟩

end Sys2Proof.Tests
end

section
/-!
PROOFS. The scope of the block (spec/00_scope.md): the pointer width of an elaborated block (R8) and the parameters that stay fixed
for its lifetime (R6, 10_state R29).
-/

namespace Sys2Proof.Machine

open Sys2Proof

/-- Settles O1: the least exponent is `clog2 n`, by its two bounds. -/
theorem pointerWidthIsLeastThatFits : Obligations.PointerWidthIsLeastThatFits := by
  refine ⟨fun n => ⟨clog2 n, rfl, le_two_pow_clog2 n, ?_, le_two_pow_ptrWidth n⟩, by decide, by decide, by decide⟩
  exact fun j hj => two_pow_lt_of_lt_clog2 hj

theorem Effect.cfg_eq {i : Instr} {s t : State} (h : Effect i s t) : t.cfg = s.cfg :=
  h.frame.1

theorem bothPorts_cfg {ip ic : Instr} {s t : State} (h : bothPorts ip ic s = .next t) : t.cfg = s.cfg := by
  obtain ⟨-, ⟨code, -, rfl⟩ | ⟨sp, code, -, -, -, rfl⟩ | ⟨sp, sc, -, -, -, -, rfl⟩⟩ := bothPorts_next h
  · exact raiseFault_cfg code ip.port s
  · exact raiseFault_cfg code ic.port s
  · exact mergePorts_cfg s sp sc

/-- No event changes the parameters, the reset included (00_scope R6, 10_state R29). -/
theorem perform_cfg {e : Event} {s t : State} (h : perform e s = .next t) : t.cfg = s.cfg := by
  obtain ⟨_, _, -, -, hboth⟩ | ⟨_, -, hexec⟩ | ⟨_, -, hexec⟩ | ⟨-, -, -, rfl⟩ | ⟨-, -, -, rfl⟩ | ⟨_, _, -, rfl⟩ :=
    perform_next h
  · exact bothPorts_cfg hboth
  · exact (exec_next hexec).2.cfg_eq
  · exact (exec_next hexec).2.cfg_eq
  · exact sampleHead_cfg s
  · exact sampleTail_cfg s
  · exact resetBlock_cfg s

/-- Settles O20: a step is idle or performs one event, and neither writes the configuration. -/
theorem stepNeverChangesParameters : Obligations.StepNeverChangesParameters := by
  intro s t h
  obtain ⟨-, -, rfl⟩ | ⟨e, rest, -, hperform⟩ := step_next h
  · exact respond_cfg Resp.quiet s
  · exact (perform_cfg hperform).trans (setEnv_cfg rest s)

end Sys2Proof.Machine
end

section
/-!
PROOFS. What the state holds (spec/10_state.md), first part: the gray codes the chains store decode back to their pointers (42_cdc R83,
R84), what a step of the block's agents can have done to each side of the queue (R18, R19), and that reset and every step keep the state
well formed (R20, R21, R25, R32).
-/

namespace Sys2Proof.Machine

open Sys2Proof

/-! ### Gray codes of pointers -/

theorem bin2gray_lt {w b : Nat} (h : b < 2 ^ w) : bin2gray b < 2 ^ w :=
  Nat.xor_lt_two_pow h ((Nat.shiftRight_le b 1).trans_lt h)

/-- The gray code of a halved number is its halved gray code. -/
theorem bin2gray_shiftRight_one (b : Nat) : bin2gray b >>> 1 = bin2gray (b >>> 1) :=
  Nat.shiftRight_xor_distrib

/-- Decoding inverts encoding on `w`-bit values (42_cdc R84). -/
theorem gray2bin_bin2gray {w b : Nat} (h : b < 2 ^ w) : gray2bin w (bin2gray b) = b := by
  induction w generalizing b with
  | zero => simp only [gray2bin]; omega
  | succ w ih =>
    have hhalf : b >>> 1 < 2 ^ w := by
      rw [Nat.shiftRight_eq_div_pow]
      omega
    calc gray2bin (w + 1) (bin2gray b)
        = bin2gray b ^^^ gray2bin w (bin2gray (b >>> 1)) := by rw [gray2bin, bin2gray_shiftRight_one]
      _ = b ^^^ (b >>> 1) ^^^ (b >>> 1) := by rw [ih hhalf, bin2gray]
      _ = b := by simp

theorem pointer_lt_two_pow {cfg : Cfg} {p : Nat} (h : p < cfg.capacity) : p < 2 ^ cfg.ptrW :=
  h.trans_le cfg.capacity_le

/-- A stage that holds the gray code of a pointer is well formed (10_state R20, R25). -/
theorem stage_wf {cfg : Cfg} {p : Nat} (h : p < cfg.capacity) :
    bin2gray p < 2 ^ cfg.ptrW ∧ gray2bin cfg.ptrW (bin2gray p) < cfg.capacity := by
  have hp := pointer_lt_two_pow h
  exact ⟨bin2gray_lt hp, (gray2bin_bin2gray hp).symm ▸ h⟩

/-! ### Reset and the fault outputs -/

theorem replicate_chainWf (cfg : Cfg) : chainWf cfg (List.replicate cfg.stages 0) = true := by
  have hstage : 0 < 2 ^ cfg.ptrW ∧ gray2bin cfg.ptrW 0 < cfg.capacity :=
    stage_wf (p := 0) (by have := cfg.two_le_capacity; omega)
  refine chainWf_iff.mpr ⟨List.length_replicate, fun g hg => ?_⟩
  rw [List.eq_of_mem_replicate hg]
  exact hstage

theorem resetOf_wf (cfg : Cfg) : (State.resetOf cfg).wf = true := by
  have hcap : 0 < cfg.capacity := by have := cfg.two_le_capacity; omega
  exact wf_iff.mpr ⟨hcap, hcap, resetOf_slots_wf cfg, fun i v h => (List.not_mem_nil h).elim, replicate_chainWf cfg,
    replicate_chainWf cfg⟩

/-- Settles O46: a stage at reset is the gray code of pointer 0. -/
theorem resetIsWellFormed : Obligations.ResetIsWellFormed :=
  fun cfg _ => resetOf_wf cfg

/-- Settles O41: the two configurations differ in the number of stages alone. -/
theorem resetValues : Obligations.ResetValues := by
  refine ⟨rfl, fun cfg => ⟨rfl, rfl, rfl, fun _ => rfl, rfl, fun hcdc => ?_, fun hcdc => ?_, rfl, rfl, rfl⟩⟩
  · simp [Cfg.stages_of_cdc hcdc]
  · simp [Cfg.stages_of_not_cdc hcdc]

/-- The outputs of a recorded fault read back as that fault (10_state R26). -/
theorem readFaultOutputs_of_bits (code : FaultCode) (q : Port) :
    readFaultOutputs (faultCodeBits code) (portBit q) = .next (some (code, q)) := by
  cases code <;> cases q <;> rfl

/-- A code that no fault has is refused (93 I6). -/
theorem readFaultOutputs_of_reserved {code : BitVec 4} (h : 0x4#4 ≤ code) (port : BitVec 1) :
    readFaultOutputs code port = .refused .reservedFaultCode := by
  have hne : ∀ c : BitVec 4, c < 0x4#4 → code ≠ c := fun c hc heq => by subst heq; bv_omega
  simp only [readFaultOutputs, hne _ (by decide : 0x0#4 < 0x4#4), hne _ (by decide : 0x1#4 < 0x4#4),
    hne _ (by decide : 0x2#4 < 0x4#4), hne _ (by decide : 0x3#4 < 0x4#4), if_false]

theorem faultOutputs_of_fault {s : State} {code : FaultCode} {q : Port} (h : s.fault = some (code, q)) :
    faultCodeOut s = faultCodeBits code ∧ faultPortOut s = portBit q := by
  simp [faultCodeOut, faultPortOut, h]

theorem faultOutputs_of_running {s : State} (h : s.fault = none) : faultCodeOut s = 0x0#4 ∧ faultPortOut s = 0#1 := by
  simp [faultCodeOut, faultPortOut, h]

/-- Settles O40: the outputs are the bits of the register, and the reader inverts them. -/
theorem faultOutputsShowTheRegister : Obligations.FaultOutputsShowTheRegister := by
  refine ⟨fun s => faultOutputs_of_running, fun s q h => (faultOutputs_of_fault h).1,
    fun s q h => (faultOutputs_of_fault h).1, fun s q h => (faultOutputs_of_fault h).1,
    fun s code h => (faultOutputs_of_fault h).2, fun s code h => (faultOutputs_of_fault h).2, fun s => ?_,
    fun code port h => readFaultOutputs_of_reserved h port⟩
  cases hf : s.fault with
  | none =>
    obtain ⟨hcode, hport⟩ := faultOutputs_of_running hf
    rw [hcode, hport]
    rfl
  | some recorded =>
    obtain ⟨code, q⟩ := recorded
    obtain ⟨hcode, hport⟩ := faultOutputs_of_fault hf
    rw [hcode, hport, readFaultOutputs_of_bits]

/-! ### The views -/

/-- A well-formed chain of a block with CDC has its stage SYNC_STAGES, which is what the view decodes (10_state R24, R25). -/
theorem lastStage_exists {cfg : Cfg} {chain : List Nat} (hcdc : cfg.cdc = true) (hwf : chainWf cfg chain = true) :
    ∃ g, chain[cfg.syncStages - 1]? = some g ∧ lastStage cfg chain = g := by
  obtain ⟨hlength, -⟩ := chainWf_iff.mp hwf
  have hlt : cfg.syncStages - 1 < chain.length := by
    have := cfg.two_le_syncStages hcdc
    rw [hlength, Cfg.stages_of_cdc hcdc]
    omega
  exact ⟨chain[cfg.syncStages - 1], List.getElem?_eq_getElem hlt, List.getD_eq_getElem chain 0 hlt⟩

theorem pFull_iff {s : State} : pFull s = true ↔ nextTail s = hview s := by
  simp [pFull, pointerEq]

theorem cEmpty_iff {s : State} : cEmpty s = true ↔ s.head = tview s := by
  simp [cEmpty, pointerEq]

/-- Settles O22: the view's definition, with the last stage that a well-formed chain has. -/
theorem viewsFollowTheConfiguration : Obligations.ViewsFollowTheConfiguration := by
  intro s hwf
  obtain ⟨-, -, -, -, hh, ht⟩ := wf_iff.mp hwf
  refine ⟨fun hcdc => by simp [hview, tview, hcdc], fun hcdc => ?_, pFull_iff, cEmpty_iff⟩
  obtain ⟨g, hg, hlast⟩ := lastStage_exists hcdc hh
  obtain ⟨g', hg', hlast'⟩ := lastStage_exists hcdc ht
  exact ⟨g, g', hg, hg', by simp [hview, hcdc, hlast], by simp [tview, hcdc, hlast']⟩

/-! ### What a step does to each side of the queue -/

/-- What a step leaves of the producer's side when port P presents `i` in it, if anything: as it was, or after one PUT. -/
inductive PutSide (i : Option Instr) (s t : State) : Prop where
  | kept (tail_eq : t.tail = s.tail) (slots_eq : t.slots = s.slots) (out_eq : t.out.pOk = false)
  | stored (v : Elem) (command : i = some (.put .p v)) (room : pFull s = false) (slot : s.tail < s.cfg.capacity)
      (tail_eq : t.tail = nextTail s) (slots_eq : t.slots = Memory.write s.slots s.tail v) (out_eq : t.out.pOk = true)

/-- What a step leaves of the consumer's side when port C presents `i` in it, if anything: as it was, or after one GET. -/
inductive GetSide (i : Option Instr) (s t : State) : Prop where
  | kept (head_eq : t.head = s.head) (out_eq : t.out.cOk = false) (data_eq : t.out.cData = none)
  | taken (v : Elem) (command : i = some (.get .c)) (some_left : cEmpty s = false) (slot : s.head < s.cfg.capacity)
      (read_eq : Memory.read s.slots s.head = some v) (head_eq : t.head = nextHead s) (out_eq : t.out.cOk = true)
      (data_eq : t.out.cData = some v)

theorem PutSide.of_setEnv {i : Option Instr} {es : List Event} {s t : State} (h : PutSide i (setEnv es s) t) :
    PutSide i s t := by
  cases h with
  | kept tail_eq slots_eq out_eq => exact .kept tail_eq slots_eq out_eq
  | stored v command room slot tail_eq slots_eq out_eq => exact .stored v command room slot tail_eq slots_eq out_eq

theorem GetSide.of_setEnv {i : Option Instr} {es : List Event} {s t : State} (h : GetSide i (setEnv es s) t) :
    GetSide i s t := by
  cases h with
  | kept head_eq out_eq data_eq => exact .kept head_eq out_eq data_eq
  | taken v command some_left slot read_eq head_eq out_eq data_eq =>
    exact .taken v command some_left slot read_eq head_eq out_eq data_eq

/-- A command of port P works on the producer's side alone. -/
theorem Effect.sides_of_p {i : Instr} {s t : State} (h : Effect i s t) (hport : i.port = .p) :
    PutSide (some i) s t ∧ GetSide none s t := by
  cases h with
  | nop => exact ⟨.kept rfl rfl rfl, .kept rfl rfl rfl⟩
  | full => exact ⟨.kept rfl rfl rfl, .kept rfl rfl rfl⟩
  | stored v _ hroom hslot => exact ⟨.stored v rfl hroom hslot rfl rfl rfl, .kept rfl rfl rfl⟩
  | empty => cases hport
  | taken => cases hport
  | unwritten => cases hport
  | illegal => exact ⟨.kept rfl rfl rfl, .kept rfl rfl rfl⟩

/-- A command of port C works on the consumer's side alone. -/
theorem Effect.sides_of_c {i : Instr} {s t : State} (h : Effect i s t) (hport : i.port = .c) :
    PutSide none s t ∧ GetSide (some i) s t := by
  cases h with
  | nop => exact ⟨.kept rfl rfl rfl, .kept rfl rfl rfl⟩
  | full => cases hport
  | stored => cases hport
  | empty => exact ⟨.kept rfl rfl rfl, .kept rfl rfl rfl⟩
  | taken v _ hsome hslot hread => exact ⟨.kept rfl rfl rfl, .taken v rfl hsome hslot hread rfl rfl rfl⟩
  | unwritten => exact ⟨.kept rfl rfl rfl, .kept rfl rfl rfl⟩
  | illegal => exact ⟨.kept rfl rfl rfl, .kept rfl rfl rfl⟩

/-- A merge takes the producer's side from P's command and the consumer's from C's (40_fifo_ops R67). -/
theorem PutSide.merge {i : Option Instr} {s sp : State} (h : PutSide i s sp) (sc : State) :
    PutSide i s (mergePorts s sp sc) := by
  cases h with
  | kept tail_eq slots_eq out_eq => exact .kept tail_eq slots_eq out_eq
  | stored v command room slot tail_eq slots_eq out_eq => exact .stored v command room slot tail_eq slots_eq out_eq

theorem GetSide.merge {i : Option Instr} {s sc : State} (h : GetSide i s sc) (sp : State) :
    GetSide i s (mergePorts s sp sc) := by
  cases h with
  | kept head_eq out_eq data_eq => exact .kept head_eq out_eq data_eq
  | taken v command some_left slot read_eq head_eq out_eq data_eq =>
    exact .taken v command some_left slot read_eq head_eq out_eq data_eq

theorem bothPorts_sides {ip ic : Instr} {s t : State} (hp : ip.port = .p) (hc : ic.port = .c)
    (h : bothPorts ip ic s = .next t) : PutSide (some ip) s t ∧ GetSide (some ic) s t := by
  obtain ⟨-, ⟨code, -, rfl⟩ | ⟨sp, code, -, -, -, rfl⟩ | ⟨sp, sc, ep, -, ec, -, rfl⟩⟩ := bothPorts_next h
  · exact ⟨.kept rfl rfl rfl, .kept rfl rfl rfl⟩
  · exact ⟨.kept rfl rfl rfl, .kept rfl rfl rfl⟩
  · exact ⟨(ep.sides_of_p hp).1.merge sc, (ec.sides_of_c hc).2.merge sp⟩

theorem bothPorts_chains {ip ic : Instr} {s t : State} (h : bothPorts ip ic s = .next t) :
    t.hsync = s.hsync ∧ t.tsync = s.tsync := by
  obtain ⟨-, ⟨code, -, rfl⟩ | ⟨sp, code, -, -, -, rfl⟩ | ⟨sp, sc, -, -, -, -, rfl⟩⟩ := bothPorts_next h
  · exact ⟨rfl, rfl⟩
  · exact ⟨rfl, rfl⟩
  · exact ⟨rfl, rfl⟩

/-- Everything a step that is no reset does to the cursors, the slots and the chains; `e` is its event, if the environment had one. -/
structure AgentStep (e : Option Event) (s t : State) : Prop where
  cfg_eq : t.cfg = s.cfg
  not_reset : ∀ ev, e = some ev → ev.isReset = false
  possible : ∀ ev, e = some ev → ev.possible s.cfg = true
  put : PutSide (e.bind Event.pInstr) s t
  get : GetSide (e.bind Event.cInstr) s t
  hsync_eq : t.hsync = if e = some .stepSH then shiftChain s.cfg s.head s.hsync else s.hsync
  tsync_eq : t.tsync = if e = some .stepST then shiftChain s.cfg s.tail s.tsync else s.tsync

/-- One event that the environment had. -/
theorem AgentStep.of_event {e : Event} {s t : State} (hcfg : t.cfg = s.cfg) (hreset : e.isReset = false)
    (hpossible : e.possible s.cfg = true) (hsides : PutSide e.pInstr s t ∧ GetSide e.cInstr s t)
    (hh : t.hsync = if e = .stepSH then shiftChain s.cfg s.head s.hsync else s.hsync)
    (ht : t.tsync = if e = .stepST then shiftChain s.cfg s.tail s.tsync else s.tsync) : AgentStep (some e) s t where
  cfg_eq := hcfg
  not_reset := by rintro _ ⟨⟩; exact hreset
  possible := by rintro _ ⟨⟩; exact hpossible
  put := hsides.1
  get := hsides.2
  hsync_eq := by simpa only [Option.some.injEq] using hh
  tsync_eq := by simpa only [Option.some.injEq] using ht

theorem AgentStep.of_setEnv {e : Option Event} {es : List Event} {s t : State} (h : AgentStep e (setEnv es s) t) :
    AgentStep e s t :=
  { h with put := h.put.of_setEnv, get := h.get.of_setEnv }

/-- An event that answers a next state is a step of the agents or a reset. -/
theorem perform_cases {e : Event} {s t : State} (h : perform e s = .next t) :
    AgentStep (some e) s t ∨ ∃ pCmd cCmd, e = .rst pCmd cCmd ∧ t = resetBlock s := by
  have hcfg := perform_cfg h
  obtain ⟨pCmd, cCmd, rfl, hcdc, hboth⟩ | ⟨pCmd, rfl, hexec⟩ | ⟨cCmd, rfl, hexec⟩ | ⟨rfl, hcdc, -, rfl⟩ |
    ⟨rfl, hcdc, -, rfl⟩ | ⟨pCmd, cCmd, rfl, rfl⟩ := perform_next h
  · obtain ⟨hh, ht⟩ := bothPorts_chains hboth
    have hsides := bothPorts_sides (port_decode .p pCmd) (port_decode .c cCmd) hboth
    exact .inl (.of_event hcfg rfl (by simp [Event.possible, hcdc]) hsides hh ht)
  · obtain ⟨-, heffect⟩ := exec_next hexec
    obtain ⟨-, hh, ht, -⟩ := heffect.frame
    exact .inl (.of_event hcfg rfl rfl (heffect.sides_of_p (port_decode .p pCmd)) hh ht)
  · obtain ⟨-, heffect⟩ := exec_next hexec
    obtain ⟨-, hh, ht, -⟩ := heffect.frame
    exact .inl (.of_event hcfg rfl rfl (heffect.sides_of_c (port_decode .c cCmd)) hh ht)
  · exact .inl (.of_event hcfg rfl hcdc ⟨.kept rfl rfl rfl, .kept rfl rfl rfl⟩ rfl rfl)
  · exact .inl (.of_event hcfg rfl hcdc ⟨.kept rfl rfl rfl, .kept rfl rfl rfl⟩ rfl rfl)
  · exact .inr ⟨pCmd, cCmd, rfl, rfl⟩

/-- A step that answers a next state is a step of the agents or a reset. -/
theorem step_cases {s t : State} (h : step s = .next t) :
    AgentStep s.env.head? s t ∨
      ∃ pCmd cCmd rest, s.env = .rst pCmd cCmd :: rest ∧ t = resetBlock (setEnv rest s) := by
  obtain ⟨henv, -, rfl⟩ | ⟨e, rest, henv, hperform⟩ := step_next h
  · rw [henv]
    exact .inl ⟨rfl, nofun, nofun, .kept rfl rfl rfl, .kept rfl rfl rfl, rfl, rfl⟩
  · rw [henv]
    obtain hagents | ⟨pCmd, cCmd, rfl, rfl⟩ := perform_cases hperform
    · exact .inl hagents.of_setEnv
    · exact .inr ⟨pCmd, cCmd, rest, rfl, rfl⟩

theorem GetSide.head_writer {i : Option Instr} {s t : State} (h : GetSide i s t) :
    (t.out.cOk = false → t.head = s.head) ∧
      (t.out.cOk = true → t.head = inc s.cfg.capacity s.head ∧ i = some (.get .c)) := by
  cases h with
  | kept head_eq out_eq => exact ⟨fun _ => head_eq, fun hok => by simp [out_eq] at hok⟩
  | taken _ command _ _ _ head_eq out_eq _ => exact ⟨fun hno => by simp [out_eq] at hno, fun _ => ⟨head_eq, command⟩⟩

theorem PutSide.tail_writer {i : Option Instr} {s t : State} (h : PutSide i s t) :
    (t.out.pOk = false → t.tail = s.tail) ∧
      (t.out.pOk = true → t.tail = inc s.cfg.capacity s.tail ∧ ∃ v, i = some (.put .p v)) := by
  cases h with
  | kept tail_eq _ out_eq => exact ⟨fun _ => tail_eq, fun hok => by simp [out_eq] at hok⟩
  | stored v command _ _ tail_eq _ out_eq =>
    exact ⟨fun hno => by simp [out_eq] at hno, fun _ => ⟨tail_eq, v, command⟩⟩

/-- Settles O19: a step works on each side of the queue by that side's own command. -/
theorem eachCursorHasOneWriter : Obligations.EachCursorHasOneWriter := by
  intro s t hstep hnot
  obtain hagents | ⟨pCmd, cCmd, rest, henv, -⟩ := step_cases hstep
  · obtain ⟨hheld, hmoved⟩ := hagents.get.head_writer
    obtain ⟨theld, tmoved⟩ := hagents.put.tail_writer
    refine ⟨⟨hheld, fun hok => ?_⟩, ⟨theld, fun hok => ?_⟩⟩
    · obtain ⟨hhead, hcommand⟩ := hmoved hok
      exact ⟨hhead, Option.bind_eq_some_iff.mp hcommand⟩
    · obtain ⟨htail, v, hcommand⟩ := tmoved hok
      obtain ⟨e, he, hput⟩ := Option.bind_eq_some_iff.mp hcommand
      exact ⟨htail, e, v, he, hput⟩
  · cases hnot (.rst pCmd cCmd) (by rw [henv]; rfl)

/-! ### Every step keeps the state well formed -/

/-- A shift keeps a chain well formed: the new stage is the gray code of a pointer, the others are old ones. -/
theorem shiftChain_wf {cfg : Cfg} {sample : Nat} {chain : List Nat} (hcdc : cfg.cdc = true) (hsample : sample < cfg.capacity)
    (hwf : chainWf cfg chain = true) : chainWf cfg (shiftChain cfg sample chain) = true := by
  obtain ⟨hlength, hstages⟩ := chainWf_iff.mp hwf
  refine chainWf_iff.mpr ⟨?_, fun g hg => ?_⟩
  · simp [shiftChain, hlength, Cfg.stages_of_cdc hcdc]
  · obtain rfl | hold := List.mem_cons.mp (List.mem_of_mem_take hg)
    · exact stage_wf hsample
    · exact hstages g hold

theorem GetSide.head_lt {i : Option Instr} {s t : State} (h : GetSide i s t) (hhead : s.head < s.cfg.capacity) :
    t.head < s.cfg.capacity := by
  cases h with
  | kept head_eq => exact head_eq ▸ hhead
  | taken _ _ _ _ _ head_eq => exact head_eq ▸ inc_lt hhead

theorem PutSide.tail_lt {i : Option Instr} {s t : State} (h : PutSide i s t) (htail : s.tail < s.cfg.capacity) :
    t.tail < s.cfg.capacity := by
  cases h with
  | kept tail_eq => exact tail_eq ▸ htail
  | stored _ _ _ _ tail_eq => exact tail_eq ▸ inc_lt htail

theorem PutSide.slots_wf {i : Option Instr} {s t : State} (h : PutSide i s t) (hwf : Memory.wf s.slots = true)
    (hbelow : ∀ j v, (j, v) ∈ s.slots → j < s.cfg.capacity) :
    Memory.wf t.slots = true ∧ ∀ j v, (j, v) ∈ t.slots → j < s.cfg.capacity := by
  cases h with
  | kept _ slots_eq => exact slots_eq ▸ ⟨hwf, hbelow⟩
  | stored v _ _ slot _ slots_eq =>
    rw [slots_eq]
    exact ⟨Memory.write_wf s.slots s.tail v hwf,
      fun j w hj => Memory.write_below v slot (fun cell => hbelow cell.1 cell.2) (j, w) hj⟩

/-- The chains after a step of the agents. -/
theorem AgentStep.chains_wf {e : Option Event} {s t : State} (h : AgentStep e s t) (hwf : s.wf = true) :
    chainWf s.cfg t.hsync = true ∧ chainWf s.cfg t.tsync = true := by
  obtain ⟨hhead, htail, -, -, hh, ht⟩ := wf_iff.mp hwf
  constructor
  · rw [h.hsync_eq]
    split
    · exact shiftChain_wf (h.possible .stepSH ‹_›) hhead hh
    · exact hh
  · rw [h.tsync_eq]
    split
    · exact shiftChain_wf (h.possible .stepST ‹_›) htail ht
    · exact ht

theorem AgentStep.wf {e : Option Event} {s t : State} (h : AgentStep e s t) (hwf : s.wf = true) : t.wf = true := by
  obtain ⟨hhead, htail, hslots, hbelow, -, -⟩ := wf_iff.mp hwf
  obtain ⟨hslots', hbelow'⟩ := h.put.slots_wf hslots hbelow
  obtain ⟨hh, ht⟩ := h.chains_wf hwf
  rw [wf_iff, h.cfg_eq]
  exact ⟨h.get.head_lt hhead, h.put.tail_lt htail, hslots', hbelow', hh, ht⟩

/-- Settles O47: the step kept each side of the queue and each chain, or it was a reset. -/
theorem stepKeepsWellFormed : Obligations.StepKeepsWellFormed := by
  intro s t hwf hstep
  obtain hagents | ⟨_, _, rest, -, rfl⟩ := step_cases hstep
  · exact hagents.wf hwf
  · exact resetOf_wf s.cfg

end Sys2Proof.Machine
end

section
/-!
PROOFS. What the state holds, second part: reset and every step keep the correspondence between the block and its history of PUTs and
GETs (10_state R33, 42_cdc R91), so it holds in every execution.
-/

namespace Sys2Proof.Machine

open Sys2Proof

/-! ### Counters: lists of samples, newest first -/

@[simp] theorem History.np_mk (puts gots : List Elem) (nh nt : List Nat) :
    (History.mk puts gots nh nt).np = puts.length := rfl

@[simp] theorem History.nc_mk (puts gots : List Elem) (nh nt : List Nat) :
    (History.mk puts gots nh nt).nc = gots.length := rfl

/-- The oldest sample, or the live counter where there is none, rises with the live counter. -/
theorem getLastD_mono (samples : List Nat) {a b : Nat} (h : a ≤ b) : samples.getLastD a ≤ samples.getLastD b := by
  cases samples with
  | nil => exact h
  | cons newest older => exact le_rfl

/-- The live counter may rise above its samples. -/
theorem samples_order_mono {samples : List Nat} {a b : Nat} (h : a ≤ b)
    (horder : (a :: samples).Pairwise fun newer older => older ≤ newer) :
    (b :: samples).Pairwise fun newer older => older ≤ newer := by
  obtain ⟨hlive, hsamples⟩ := List.pairwise_cons.mp horder
  exact List.pairwise_cons.mpr ⟨fun x hx => (hlive x hx).trans h, hsamples⟩

/-- Sampling the live counter keeps the order. -/
theorem samples_order_shift {samples : List Nat} {live : Nat} (k : Nat)
    (horder : (live :: samples).Pairwise fun newer older => older ≤ newer) :
    (live :: (live :: samples).take k).Pairwise fun newer older => older ≤ newer := by
  refine List.pairwise_cons.mpr ⟨fun x hx => ?_, horder.sublist (List.take_sublist k _)⟩
  obtain rfl | hold := List.mem_cons.mp (List.mem_of_mem_take hx)
  · exact le_rfl
  · exact (List.pairwise_cons.mp horder).1 x hold

/-- A shift drops the oldest sample for one that is no older. -/
theorem getLastD_le_shift {samples : List Nat} {live : Nat} (k : Nat)
    (horder : (live :: samples).Pairwise fun newer older => older ≤ newer) :
    samples.getLastD live ≤ ((live :: samples).take k).getLastD live := by
  have hmem : ((live :: samples).take k).getLastD live ∈ live :: samples := by
    rw [List.getLastD_eq_getLast?]
    cases hlast : ((live :: samples).take k).getLast? with
    | none => exact List.mem_cons_self
    | some x => exact List.mem_of_mem_take (List.mem_of_getLast? hlast)
  have hle := horder.rel_getLast_of_rel_getLast_getLast hmem le_rfl
  rwa [List.getLast_eq_getLastD] at hle

/-! ### Reset -/

theorem holds_resetOf (cfg : Cfg) (es : List Event) : (History.begin cfg).Holds (setEnv es (State.resetOf cfg)) := by
  have hchain : List.replicate cfg.stages 0 =
      (List.replicate cfg.stages 0).map fun n => bin2gray (n % cfg.capacity) := by
    rw [List.map_replicate, Nat.zero_mod]
    rfl
  have horder : (0 :: List.replicate cfg.stages 0).Pairwise fun newer older => older ≤ newer := by
    rw [← List.replicate_succ]
    exact List.pairwise_replicate_of_refl
  exact {
    tail_eq := (Nat.zero_mod _).symm
    head_eq := (Nat.zero_mod _).symm
    hsync_eq := hchain
    tsync_eq := hchain
    nh_length := List.length_replicate
    nt_length := List.length_replicate
    nh_order := horder
    nt_order := horder
    nc_le := Nat.zero_le _
    np_le := Nat.zero_le _
    fifo := rfl
    resident := fun j _ hj => (Nat.not_lt_zero j hj).elim }

/-- Settles O48: every counter is 0. -/
theorem historyHoldsAtReset : Obligations.HistoryHoldsAtReset :=
  holds_resetOf

/-! ### The views count the history -/

/-- What a side sees of a counter: the oldest sample with CDC, the live counter without (10_state R24, 42_cdc R91). -/
theorem view_of_samples {cfg : Cfg} {samples : List Nat} (live : Nat) (hlength : samples.length = cfg.stages) :
    (if cfg.cdc then gray2bin cfg.ptrW (lastStage cfg (samples.map fun n => bin2gray (n % cfg.capacity)))
      else live % cfg.capacity) = samples.getLastD live % cfg.capacity := by
  have hcap : 0 < cfg.capacity := by have := cfg.two_le_capacity; omega
  cases hcdc : cfg.cdc with
  | false =>
    rw [Cfg.stages_of_not_cdc hcdc] at hlength
    simp [List.length_eq_zero_iff.mp hlength]
  | true =>
    rw [Cfg.stages_of_cdc hcdc] at hlength
    have hlt : cfg.syncStages - 1 < samples.length := by have := cfg.two_le_syncStages hcdc; omega
    have hlast : samples.getLastD live = samples[cfg.syncStages - 1] := by
      rw [List.getLastD_eq_getLast?, List.getLast?_eq_getElem?, hlength, List.getElem?_eq_getElem hlt, Option.getD_some]
    have hstage : lastStage cfg (samples.map fun n => bin2gray (n % cfg.capacity)) =
        bin2gray (samples[cfg.syncStages - 1] % cfg.capacity) := by
      simp [lastStage, List.getElem?_eq_getElem hlt]
    rw [if_pos rfl, hstage, hlast, gray2bin_bin2gray (pointer_lt_two_pow (Nat.mod_lt _ hcap))]

theorem History.Holds.hview_eq {h : History} {s : State} (hs : h.Holds s) :
    hview s = h.nh.getLastD h.nc % s.cfg.capacity := by
  rw [hview, hs.hsync_eq, hs.head_eq]
  exact view_of_samples h.nc hs.nh_length

theorem History.Holds.tview_eq {h : History} {s : State} (hs : h.Holds s) :
    tview s = h.nt.getLastD h.np % s.cfg.capacity := by
  rw [tview, hs.tsync_eq, hs.tail_eq]
  exact view_of_samples h.np hs.nt_length

theorem History.Holds.nc_le_np {h : History} {s : State} (hs : h.Holds s) : h.nc ≤ h.np := by
  obtain ⟨-, hready, hsampled, -⟩ := hs.bounds
  exact hready.trans hsampled

/-- At most CAPACITY - 1 elements are resident (10_state R33). -/
theorem History.Holds.np_lt {h : History} {s : State} (hs : h.Holds s) : h.np < h.nc + s.cfg.capacity := by
  obtain ⟨hsampled, -, -, hroom⟩ := hs.bounds
  have := s.cfg.two_le_capacity
  omega

/-- Where the producer sees room, the oldest sample of `Nc` leaves room for one more PUT. -/
theorem History.Holds.room {h : History} {s : State} (hs : h.Holds s) (hfull : pFull s = false) :
    h.np + 1 ≤ h.nh.getLastD h.nc + (s.cfg.capacity - 1) := by
  obtain ⟨-, -, -, hle⟩ := hs.bounds
  have hcap := s.cfg.two_le_capacity
  have hne : ¬ nextTail s = hview s := fun heq => by simp [pFull_iff.mpr heq] at hfull
  refine Nat.lt_of_le_of_ne hle fun hlast => hne ?_
  rw [nextTail, hs.tail_eq, inc_residue (by omega), hs.hview_eq, hlast,
    show h.nh.getLastD h.nc + (s.cfg.capacity - 1) + 1 = h.nh.getLastD h.nc + s.cfg.capacity by omega,
    Nat.add_mod_right]

/-- Where the consumer sees an element, the oldest sample of `Np` counts one that is not yet got. -/
theorem History.Holds.ready {h : History} {s : State} (hs : h.Holds s) (hempty : cEmpty s = false) :
    h.nc < h.nt.getLastD h.np := by
  refine Nat.lt_of_le_of_ne hs.nc_le fun hlast => ?_
  have heq : s.head = tview s := by rw [hs.head_eq, hs.tview_eq, ← hlast]
  simp [cEmpty_iff.mpr heq] at hempty

/-! ### The history after each write -/

/-- A PUT that the counters leave room for. -/
theorem History.Holds.store {h : History} {s : State} (hs : h.Holds s) (v : Elem)
    (hroom : h.np + 1 ≤ h.nh.getLastD h.nc + (s.cfg.capacity - 1)) :
    ({ h with puts := h.puts ++ [v] } : History).Holds (storeElem v s) := by
  have hcap : 0 < s.cfg.capacity := by have := s.cfg.two_le_capacity; omega
  have hnp : ({ h with puts := h.puts ++ [v] } : History).np = h.np + 1 := List.length_append
  have hresident : ∀ j, h.nc ≤ j → j < h.np + 1 →
      Memory.read (Memory.write s.slots s.tail v) (j % s.cfg.capacity) = (h.puts ++ [v])[j]? := by
    intro j hnc hj
    obtain rfl | hlt := Nat.eq_or_lt_of_le (Nat.le_of_lt_succ hj)
    · rw [← hs.tail_eq, Memory.read_write_same, History.np, List.getElem?_concat_length]
    · have hne : ¬ j % s.cfg.capacity = s.tail := by
        rw [hs.tail_eq, eq_comm, residue_eq_iff hlt.le (by have := hs.np_lt; omega)]
        omega
      rw [Memory.read_write_other s.slots v hne, hs.resident j hnc hlt, List.getElem?_append_left hlt]
  exact {
    tail_eq := by rw [hnp, storeElem_tail, nextTail, hs.tail_eq, inc_residue hcap, storeElem_cfg]
    head_eq := hs.head_eq
    hsync_eq := hs.hsync_eq
    tsync_eq := hs.tsync_eq
    nh_length := hs.nh_length
    nt_length := hs.nt_length
    nh_order := hs.nh_order
    nt_order := samples_order_mono (hnp ▸ Nat.le_succ h.np) hs.nt_order
    nc_le := hs.nc_le.trans (getLastD_mono h.nt (hnp ▸ Nat.le_succ h.np))
    np_le := hnp ▸ hroom
    fifo := hs.fifo.trans (List.take_append_of_le_length hs.nc_le_np).symm
    resident := hnp ▸ hresident }

/-- A GET of an element that the counters show. -/
theorem History.Holds.take {h : History} {s : State} (hs : h.Holds s) {v : Elem} (hready : h.nc < h.nt.getLastD h.np)
    (hread : Memory.read s.slots s.head = some v) :
    ({ h with gots := h.gots ++ [v] } : History).Holds (takeElem v s) := by
  have hcap : 0 < s.cfg.capacity := by have := s.cfg.two_le_capacity; omega
  have hnc : ({ h with gots := h.gots ++ [v] } : History).nc = h.nc + 1 := List.length_append
  have hput : h.puts[h.nc]? = some v := by
    obtain ⟨-, -, hsampled, -⟩ := hs.bounds
    rw [← hs.resident h.nc le_rfl (hready.trans_le hsampled), ← hs.head_eq, hread]
  exact {
    tail_eq := hs.tail_eq
    head_eq := by rw [hnc, takeElem_head, nextHead, hs.head_eq, inc_residue hcap, takeElem_cfg]
    hsync_eq := hs.hsync_eq
    tsync_eq := hs.tsync_eq
    nh_length := hs.nh_length
    nt_length := hs.nt_length
    nh_order := samples_order_mono (hnc ▸ Nat.le_succ h.nc) hs.nh_order
    nt_order := hs.nt_order
    nc_le := hnc ▸ hready
    np_le := hs.np_le.trans (Nat.add_le_add_right (getLastD_mono h.nh (hnc ▸ Nat.le_succ h.nc)) _)
    fifo := by rw [hnc, List.take_add_one, hput, ← hs.fifo]; rfl
    resident := fun j hj => hs.resident j (by omega) }

theorem History.Holds.sampleHead {h : History} {s : State} (hs : h.Holds s) (hcdc : s.cfg.cdc = true) :
    ({ h with nh := (h.nc :: h.nh).take s.cfg.syncStages } : History).Holds (sampleHead s) := by
  exact { hs with
    hsync_eq := by simp [shiftChain, hs.hsync_eq, hs.head_eq, List.map_take]
    nh_length := by simp [hs.nh_length, Cfg.stages_of_cdc hcdc]
    nh_order := samples_order_shift _ hs.nh_order
    np_le := hs.np_le.trans (Nat.add_le_add_right (getLastD_le_shift _ hs.nh_order) _) }

theorem History.Holds.sampleTail {h : History} {s : State} (hs : h.Holds s) (hcdc : s.cfg.cdc = true) :
    ({ h with nt := (h.np :: h.nt).take s.cfg.syncStages } : History).Holds (sampleTail s) := by
  exact { hs with
    tsync_eq := by simp [shiftChain, hs.tsync_eq, hs.tail_eq, List.map_take]
    nt_length := by simp [hs.nt_length, Cfg.stages_of_cdc hcdc]
    nt_order := samples_order_shift _ hs.nt_order
    nc_le := hs.nc_le.trans (getLastD_le_shift _ hs.nt_order) }

/-! ### The history after each step -/

theorem acceptedElem_of_not_ok {e : Event} {t : State} (h : t.out.pOk = false) : acceptedElem e t = [] := by
  unfold acceptedElem
  split
  · simp_all
  · rfl

theorem acceptedElem_of_ok {e : Event} {t : State} {q : Port} {v : Elem} (hput : e.pInstr = some (.put q v))
    (h : t.out.pOk = true) : acceptedElem e t = [v] := by
  simp [acceptedElem, hput, h]

theorem deliveredElem_of_not_ok {t : State} (h : t.out.cOk = false) : deliveredElem t = [] := by
  simp [deliveredElem, h]

theorem deliveredElem_of_ok {t : State} {v : Elem} (h : t.out.cOk = true) (hdata : t.out.cData = some v) :
    deliveredElem t = [v] := by
  simp [deliveredElem, h, hdata]

theorem GetSide.holds {i : Option Instr} {h : History} {s t : State} (hget : GetSide i s t) (hs : h.Holds s) :
    ({ h with gots := h.gots ++ deliveredElem t } : History).Holds { s with head := t.head } := by
  cases hget with
  | kept head_eq out_eq =>
    rw [deliveredElem_of_not_ok out_eq, List.append_nil]
    exact hs.congr rfl head_eq rfl rfl rfl rfl
  | taken v _ some_left _ read_eq head_eq out_eq data_eq =>
    rw [deliveredElem_of_ok out_eq data_eq]
    exact (hs.take (hs.ready some_left) read_eq).congr rfl head_eq rfl rfl rfl rfl

/-- A cycle of both ports: the GET only adds to the room that the PUT saw. -/
theorem holds_of_sides {e : Event} {h : History} {s t : State} (hput : PutSide e.pInstr s t) (hget : GetSide e.cInstr s t)
    (hs : h.Holds s) :
    ({ h with puts := h.puts ++ acceptedElem e t, gots := h.gots ++ deliveredElem t } : History).Holds
      { s with head := t.head, tail := t.tail, slots := t.slots } := by
  have hgot := hget.holds hs
  cases hput with
  | kept tail_eq slots_eq out_eq =>
    rw [acceptedElem_of_not_ok out_eq, List.append_nil]
    exact hgot.congr rfl rfl tail_eq slots_eq rfl rfl
  | stored v command room _ tail_eq slots_eq out_eq =>
    rw [acceptedElem_of_ok command out_eq]
    have hmore : h.nh.getLastD h.nc ≤ h.nh.getLastD (h.gots ++ deliveredElem t).length :=
      getLastD_mono h.nh (by simp [History.nc])
    exact (hgot.store v ((hs.room room).trans (Nat.add_le_add_right hmore _))).congr rfl rfl tail_eq slots_eq rfl rfl

/-- A step of a synchroniser leaves both sides of the queue as they were. -/
theorem AgentStep.sides_kept {e : Option Event} {s t : State} (h : AgentStep e s t) (hp : e.bind Event.pInstr = none)
    (hc : e.bind Event.cInstr = none) :
    t.head = s.head ∧ t.tail = s.tail ∧ t.slots = s.slots ∧ t.out.pOk = false ∧ t.out.cOk = false := by
  obtain ⟨tail_eq, slots_eq, pOk_eq⟩ | ⟨v, command, -, -, -, -, -⟩ := h.put
  · obtain ⟨head_eq, cOk_eq, -⟩ | ⟨v, command, -, -, -, -, -, -⟩ := h.get
    · exact ⟨head_eq, tail_eq, slots_eq, pOk_eq, cOk_eq⟩
    · rw [hc] at command; cases command
  · rw [hp] at command; cases command

theorem AgentStep.advance_eq {e : Event} {s t : State} (h : History) (hstep : AgentStep (some e) s t) :
    h.advance (some e) t =
      { puts := h.puts ++ acceptedElem e t
        gots := h.gots ++ deliveredElem t
        nh := if e = .stepSH then (h.nc :: h.nh).take s.cfg.syncStages else h.nh
        nt := if e = .stepST then (h.np :: h.nt).take s.cfg.syncStages else h.nt } := by
  simp [History.advance, hstep.not_reset e rfl, hstep.cfg_eq]

theorem AgentStep.holds {e : Option Event} {h : History} {s t : State} (hstep : AgentStep e s t) (hs : h.Holds s) :
    (h.advance e t).Holds t := by
  cases e with
  | none =>
    obtain ⟨hhead, htail, hslots, -, -⟩ := hstep.sides_kept rfl rfl
    exact hs.congr hstep.cfg_eq hhead htail hslots hstep.hsync_eq hstep.tsync_eq
  | some e =>
    rw [hstep.advance_eq h]
    have hh := hstep.hsync_eq
    have ht := hstep.tsync_eq
    by_cases hSH : e = .stepSH
    · subst hSH
      obtain ⟨hhead, htail, hslots, hpOk, hcOk⟩ := hstep.sides_kept rfl rfl
      rw [acceptedElem_of_not_ok hpOk, deliveredElem_of_not_ok hcOk, List.append_nil, List.append_nil]
      exact (hs.sampleHead (hstep.possible _ rfl)).congr hstep.cfg_eq hhead htail hslots hh ht
    · by_cases hST : e = .stepST
      · subst hST
        obtain ⟨hhead, htail, hslots, hpOk, hcOk⟩ := hstep.sides_kept rfl rfl
        rw [acceptedElem_of_not_ok hpOk, deliveredElem_of_not_ok hcOk, List.append_nil, List.append_nil]
        exact (hs.sampleTail (hstep.possible _ rfl)).congr hstep.cfg_eq hhead htail hslots hh ht
      · simp only [hSH, hST, Option.some.injEq, if_false] at hh ht ⊢
        exact (holds_of_sides hstep.put hstep.get hs).congr hstep.cfg_eq rfl rfl rfl hh ht

theorem holds_step {h : History} {s t : State} (hs : h.Holds s) (hstep : step s = .next t) :
    (h.advance s.env.head? t).Holds t := by
  obtain hagents | ⟨pCmd, cCmd, rest, henv, rfl⟩ := step_cases hstep
  · exact hagents.holds hs
  · rw [henv]
    exact holds_resetOf s.cfg rest

/-- Settles O49: the sides of the queue follow the counters, and each chain samples its own. -/
theorem stepKeepsHistory : Obligations.StepKeepsHistory :=
  fun _ _ _ _ hs hstep => holds_step hs hstep

/-- In every execution from reset the history accounts for the state (10_state R33, 42_cdc R91). -/
theorem Execution.holds {h : History} {s : State} (hex : Execution h s) : h.Holds s := by
  induction hex with
  | reset cfg es => exact holds_resetOf cfg es
  | step _ taken ih => exact holds_step ih taken

/-- Every state that an execution from reset reaches is well formed. -/
theorem Execution.wf {h : History} {s : State} (hex : Execution h s) : s.wf = true := by
  induction hex with
  | reset cfg es => exact resetOf_wf cfg
  | step _ taken ih => exact stepKeepsWellFormed _ _ ih taken

theorem Execution.inv {h : History} {s : State} (hex : Execution h s) : s.Inv :=
  ⟨hex.wf, h, hex.holds⟩

end Sys2Proof.Machine
end

section
/-!
PROOFS. What the state holds, third part: the live slots are those of the elements put and not yet got (10_state R23, R33), so each holds
a value, and what the other slots hold never shows (93 I2).
-/

namespace Sys2Proof.Machine

open Sys2Proof

/-! ### The live slots count the history -/

/-- The distance on integers, as 10_state R23 writes it. -/
theorem modDistance_cast {capacity : Nat} (hcap : 0 < capacity) (a b : Nat) :
    (modDistance capacity a b : Int) = ((a : Int) - b) % capacity := by
  rw [modDistance, Int.add_emod_right, Int.toNat_of_nonneg (Int.emod_nonneg _ (by omega))]

/-- Going the distance from `b` arrives at `a`. -/
theorem add_modDistance {capacity a b : Nat} (ha : a < capacity) (hb : b < capacity) :
    (b + modDistance capacity a b) % capacity = a := by
  rw [modDistance_of_lt ha hb]
  split
  · rw [Nat.add_sub_cancel' ‹_›, Nat.mod_eq_of_lt ha]
  · rw [show b + (a + capacity - b) = a + capacity by omega, Nat.add_mod_right, Nat.mod_eq_of_lt ha]

/-- The true occupancy is the number of elements put and not yet got (41_status R79). -/
theorem History.Holds.countTrue_eq {h : History} {s : State} (hs : h.Holds s) : countTrue s = h.np - h.nc := by
  rw [countTrue, hs.tail_eq, hs.head_eq, modDistance_residue hs.nc_le_np hs.np_lt]

/-- A slot is live exactly when it is that of an element put and not yet got. -/
theorem History.Holds.isLive_iff {h : History} {s : State} (hs : h.Holds s) {i : Nat} (hi : i < s.cfg.capacity) :
    isLive s i = true ↔ ∃ j, h.nc ≤ j ∧ j < h.np ∧ j % s.cfg.capacity = i := by
  rw [isLive, decide_eq_true_iff, hs.countTrue_eq, hs.head_eq]
  constructor
  · intro hlive
    refine ⟨h.nc + modDistance s.cfg.capacity i (h.nc % s.cfg.capacity), Nat.le_add_right _ _, by omega, ?_⟩
    rw [← Nat.mod_add_mod, add_modDistance hi (Nat.mod_lt _ (by omega))]
  · rintro ⟨j, hnc, hnp, rfl⟩
    rw [modDistance_residue hnc (by have := hs.np_lt; omega)]
    omega

/-- Settles O50: the history of an execution accounts for its state. -/
theorem cursorsCountPutsAndGets : Obligations.CursorsCountPutsAndGets := by
  intro h s hex
  have hs := hex.holds
  refine ⟨hs.tail_eq, hs.head_eq, fun hcdc => ⟨hs.nc_le_np, ?_⟩, hs.countTrue_eq, fun j hj => ?_⟩
  · have := hs.np_lt
    omega
  · rw [hs.head_eq, Nat.mod_add_mod]
    exact hs.resident (h.nc + j) (Nat.le_add_right _ _) (by omega)

/-- Settles O54: a live slot is that of an element put, which the history holds. -/
theorem liveSlotsHoldValues : Obligations.LiveSlotsHoldValues := by
  rintro s i ⟨-, h, hs⟩ hi hlive
  have hcap : 0 < s.cfg.capacity := by omega
  rw [← modDistance_cast hcap, ← modDistance_cast hcap, Int.ofNat_lt] at hlive
  obtain ⟨j, hnc, hnp, rfl⟩ := (hs.isLive_iff hi).mp (decide_eq_true hlive)
  exact ⟨h.puts[j]'hnp, (hs.resident j hnc hnp).trans (List.getElem?_eq_getElem hnp)⟩

/-! ### The same step with other content in the slots -/

/-- `s` with the slot storage `m`. -/
def withSlots (m : Memory) (s : State) : State :=
  { s with slots := m }

@[simp] theorem withSlots_cfg (m : Memory) (s : State) : (withSlots m s).cfg = s.cfg := rfl
@[simp] theorem withSlots_head (m : Memory) (s : State) : (withSlots m s).head = s.head := rfl
@[simp] theorem withSlots_tail (m : Memory) (s : State) : (withSlots m s).tail = s.tail := rfl
@[simp] theorem withSlots_slots (m : Memory) (s : State) : (withSlots m s).slots = m := rfl
@[simp] theorem withSlots_fault (m : Memory) (s : State) : (withSlots m s).fault = s.fault := rfl
@[simp] theorem withSlots_hsync (m : Memory) (s : State) : (withSlots m s).hsync = s.hsync := rfl
@[simp] theorem withSlots_tsync (m : Memory) (s : State) : (withSlots m s).tsync = s.tsync := rfl
@[simp] theorem withSlots_env (m : Memory) (s : State) : (withSlots m s).env = s.env := rfl
@[simp] theorem withSlots_out (m : Memory) (s : State) : (withSlots m s).out = s.out := rfl

/-- The storage `m` reads as that of `s` in the slot a GET would take. -/
def SameNextElem (m : Memory) (s : State) : Prop :=
  cEmpty s = false → Memory.read m s.head = Memory.read s.slots s.head

/-- A command reads no slot but the one a GET takes, so it has the same effect on the other storage. -/
theorem Effect.exists_withSlots {i : Instr} {s t : State} {m : Memory} (h : Effect i s t) (hm : SameNextElem m s) :
    ∃ m', Effect i (withSlots m s) (withSlots m' t) := by
  cases h with
  | nop q => exact ⟨m, .nop q _⟩
  | full v _ hfull => exact ⟨m, .full v _ hfull⟩
  | stored v _ hroom hslot => exact ⟨Memory.write m s.tail v, .stored v _ hroom hslot⟩
  | empty _ hempty => exact ⟨m, .empty _ hempty⟩
  | taken v _ hsome hslot hread => exact ⟨m, .taken v _ hsome hslot ((hm hsome).trans hread)⟩
  | unwritten _ hsome hslot hread => exact ⟨m, .unwritten _ hsome hslot ((hm hsome).trans hread)⟩
  | illegal _ _ code hcode => exact ⟨m, .illegal i _ code hcode⟩

theorem exec_withSlots {i : Instr} {s t : State} {m : Memory} (h : exec i s = .next t) (hm : SameNextElem m s) :
    ∃ m', exec i (withSlots m s) = .next (withSlots m' t) := by
  obtain ⟨hr, heffect⟩ := exec_next h
  obtain ⟨m', heffect'⟩ := heffect.exists_withSlots hm
  exact ⟨m', exec_of_effect hr heffect'⟩

/-- P's fault is the step's only change, whatever C presents (60_exceptions R104). -/
theorem bothPorts_of_fault_p {ip ic : Instr} {s sp : State} (hr : s.fault = none) (ep : Effect ip s sp)
    (hp : sp.fault.isSome = true) : bothPorts ip ic s = .next sp := by
  simp [bothPorts, exec_of_effect hr ep, hp]

/-- C's fault is the step's only change when P's command raises none (60_exceptions R104). -/
theorem bothPorts_of_fault_c {ip ic : Instr} {s sp sc : State} (hr : s.fault = none) (ep : Effect ip s sp)
    (hp : sp.fault = none) (ec : Effect ic s sc) (hc : sc.fault.isSome = true) : bothPorts ip ic s = .next sc := by
  simp [bothPorts, exec_of_effect hr ep, exec_of_effect hr ec, hp, hc]

theorem bothPorts_withSlots {ip ic : Instr} {s t : State} {m : Memory} (h : bothPorts ip ic s = .next t)
    (hm : SameNextElem m s) : ∃ m', bothPorts ip ic (withSlots m s) = .next (withSlots m' t) := by
  obtain ⟨hr, ⟨code, ep, rfl⟩ | ⟨sp, code, ep, hp, ec, rfl⟩ | ⟨sp, sc, ep, hp, ec, hc, rfl⟩⟩ := bothPorts_next h
  · obtain ⟨m', ep'⟩ := ep.exists_withSlots hm
    exact ⟨m', bothPorts_of_fault_p (s := withSlots m s) hr ep' rfl⟩
  · obtain ⟨mp, ep'⟩ := ep.exists_withSlots hm
    obtain ⟨m', ec'⟩ := ec.exists_withSlots hm
    exact ⟨m', bothPorts_of_fault_c (s := withSlots m s) hr ep' hp ec' rfl⟩
  · obtain ⟨mp, ep'⟩ := ep.exists_withSlots hm
    obtain ⟨mc, ec'⟩ := ec.exists_withSlots hm
    exact ⟨mp, bothPorts_of_effects (sp := withSlots mp sp) (sc := withSlots mc sc) (s := withSlots m s) hr ep' hp ec' hc⟩

theorem stepSH_of_running {s : State} (hcdc : s.cfg.cdc = true) (hr : s.fault = none) :
    stepSH s = .next (sampleHead s) := by
  rw [stepSH, if_pos hcdc, whenRunning_of_running hr]

theorem stepST_of_running {s : State} (hcdc : s.cfg.cdc = true) (hr : s.fault = none) :
    stepST s = .next (sampleTail s) := by
  rw [stepST, if_pos hcdc, whenRunning_of_running hr]

theorem perform_withSlots {e : Event} {s t : State} {m : Memory} (h : perform e s = .next t) (hm : SameNextElem m s) :
    ∃ m', perform e (withSlots m s) = .next (withSlots m' t) := by
  obtain ⟨pCmd, cCmd, rfl, hcdc, hboth⟩ | ⟨pCmd, rfl, hexec⟩ | ⟨cCmd, rfl, hexec⟩ | ⟨rfl, hcdc, hr, rfl⟩ |
    ⟨rfl, hcdc, hr, rfl⟩ | ⟨pCmd, cCmd, rfl, rfl⟩ := perform_next h
  · obtain ⟨m', hboth'⟩ := bothPorts_withSlots hboth hm
    exact ⟨m', by simp [perform, hcdc, hboth']⟩
  · exact exec_withSlots hexec hm
  · exact exec_withSlots hexec hm
  · exact ⟨m, stepSH_of_running (s := withSlots m s) hcdc hr⟩
  · exact ⟨m, stepST_of_running (s := withSlots m s) hcdc hr⟩
  · exact ⟨[], rfl⟩

theorem step_withSlots {s t : State} {m : Memory} (h : step s = .next t) (hm : SameNextElem m s) :
    ∃ m', step (withSlots m s) = .next (withSlots m' t) := by
  obtain ⟨henv, hr, rfl⟩ | ⟨e, rest, henv, hperform⟩ := step_next h
  · refine ⟨m, ?_⟩
    rw [step_of_nil (s := withSlots m s) henv, idle, whenRunning_of_running (s := withSlots m s) hr]
    rfl
  · rw [step_of_cons (s := withSlots m s) henv]
    exact perform_withSlots hperform hm

/-! ### What the slots that are not live hold -/

/-- The storage `m` reads as that of `s` in every live slot. -/
def LiveAgree (m : Memory) (s : State) : Prop :=
  ∀ i, i < s.cfg.capacity → isLive s i = true → Memory.read m i = Memory.read s.slots i

/-- The slot a GET takes is live. -/
theorem LiveAgree.sameNextElem {m : Memory} {s : State} {h : History} (hm : LiveAgree m s) (hs : h.Holds s) :
    SameNextElem m s := by
  intro hsome
  have hhead : s.head < s.cfg.capacity := hs.head_eq ▸ Nat.mod_lt _ (by have := s.cfg.two_le_capacity; omega)
  obtain ⟨-, -, hsampled, -⟩ := hs.bounds
  exact hm s.head hhead ((hs.isLive_iff hhead).mpr ⟨h.nc, le_rfl, (hs.ready hsome).trans_le hsampled, hs.head_eq.symm⟩)

theorem History.nc_le_advance {e : Option Event} {s t : State} (h : History) (hstep : AgentStep e s t) :
    h.nc ≤ (h.advance e t).nc := by
  cases e with
  | none => exact le_rfl
  | some e =>
    rw [hstep.advance_eq h]
    simp [History.nc]

/-- A step puts an element only by a PUT that succeeds. -/
theorem History.np_advance {e : Option Event} {s t : State} (h : History) (hstep : AgentStep e s t) :
    (h.advance e t).np ≤ h.np + 1 ∧ (t.out.pOk = false → (h.advance e t).np = h.np) := by
  cases e with
  | none => exact ⟨Nat.le_succ _, fun _ => rfl⟩
  | some e =>
    rw [hstep.advance_eq h, History.np_mk, List.length_append]
    obtain ⟨-, -, hno⟩ | ⟨v, command, -, -, -, -, hok⟩ := hstep.put
    · simp [acceptedElem_of_not_ok hno, History.np]
    · simp [acceptedElem_of_ok command hok, History.np, hok]

/-- The producer's side does the same to both storages: it keeps both, or it writes one element to slot `tail` of both. -/
theorem PutSide.slots_cases {i : Option Instr} {s t : State} {m m' : Memory} (hput : PutSide i s t)
    (hput' : PutSide i (withSlots m s) (withSlots m' t)) :
    (t.out.pOk = false ∧ m' = m ∧ t.slots = s.slots) ∨
      ∃ v, m' = Memory.write m s.tail v ∧ t.slots = Memory.write s.slots s.tail v := by
  obtain ⟨-, hslots, hno⟩ | ⟨v, hcommand, -, -, -, hslots, hok⟩ := hput
  · obtain ⟨-, hm, -⟩ | ⟨_, -, -, -, -, -, hok⟩ := hput'
    · exact .inl ⟨hno, hm, hslots⟩
    · simp [hno] at hok
  · obtain ⟨-, -, hno⟩ | ⟨v', hcommand', -, -, -, hm, -⟩ := hput'
    · simp [hok] at hno
    · obtain rfl : v = v' := by simpa using hcommand.symm.trans hcommand'
      exact .inr ⟨v, hm, hslots⟩

/-- A slot that is live after the step was live before it, or the step wrote it: the storages agree on it either way. -/
theorem AgentStep.liveAgree {e : Option Event} {h : History} {s t : State} {m m' : Memory} (hs : h.Holds s)
    (hstep : AgentStep e s t) (hstep' : AgentStep e (withSlots m s) (withSlots m' t)) (hm : LiveAgree m s) :
    LiveAgree m' t := by
  intro i hi hlive
  obtain ⟨j, hnc, hnp, hj⟩ := ((hstep.holds hs).isLive_iff hi).mp hlive
  rw [hstep.cfg_eq] at hi hj
  obtain ⟨hmost, hnone⟩ := h.np_advance hstep
  have hold : j < h.np → Memory.read m i = Memory.read s.slots i := fun hlt =>
    hm i hi ((hs.isLive_iff hi).mpr ⟨j, (h.nc_le_advance hstep).trans hnc, hlt, hj⟩)
  obtain ⟨hno, rfl, hslots⟩ | ⟨v, rfl, hslots⟩ := hstep.put.slots_cases hstep'.put
  · rw [hslots]
    exact hold (hnone hno ▸ hnp)
  · rw [hslots, Memory.read_write, Memory.read_write]
    split
    · rfl
    · next hne =>
      refine hold (Nat.lt_of_le_of_ne (by omega) fun hlast => hne ?_)
      rw [← hj, hlast, hs.tail_eq]

/-- Settles O57: the other storage has the same step, after which the live slots agree again; after a reset no slot is live. -/
theorem nonLiveSlotsNeverShow : Obligations.NonLiveSlotsNeverShow := by
  rintro s t m ⟨-, h, hs⟩ hm hstep
  obtain ⟨m', hstep'⟩ := step_withSlots hstep (LiveAgree.sameNextElem hm hs)
  refine ⟨m', hstep', ?_⟩
  obtain hagents | ⟨_, _, rest, henv, rfl⟩ := step_cases hstep
  · obtain hagents' | ⟨_, _, rest, henv, -⟩ := step_cases hstep'
    · exact hagents.liveAgree hs hagents' hm
    · cases hagents.not_reset (.rst _ _) (congrArg List.head? henv)
  · intro i hi hlive
    obtain ⟨j, -, hj, -⟩ := ((holds_resetOf s.cfg rest).isLive_iff hi).mp hlive
    exact (Nat.not_lt_zero j hj).elim

end Sys2Proof.Machine
end

section
/-!
PROOFS. Memory (spec/20_memory.md): a slot number at or above CAPACITY does not exist (R39), what the consumer's view counts as readable
is written (R44), and a PUT leaves the live slots alone (R48).
-/

namespace Sys2Proof.Machine

open Sys2Proof

/-! ### Where the model stops by name -/

theorem whenSlot_of_ge {s : State} {i : Nat} {k : Host.Outcome State Fault Refusal} (h : s.cfg.capacity ≤ i) :
    whenSlot s i k = .fault .slotOutOfRange :=
  if_neg (Nat.not_lt.mpr h)

theorem exec_put_p_of_running {s : State} (v : Elem) (hr : s.fault = none) : exec (.put .p v) s = putElem v s :=
  whenRunning_of_running hr

theorem exec_get_c_of_running {s : State} (hr : s.fault = none) : exec (.get .c) s = getElem s :=
  whenRunning_of_running hr

theorem putElem_of_ge {s : State} (v : Elem) (hroom : pFull s = false) (hslot : s.cfg.capacity ≤ s.tail) :
    putElem v s = .fault .slotOutOfRange := by
  simp [putElem, hroom, whenSlot_of_ge hslot]

theorem getElem_of_ge {s : State} (hsome : cEmpty s = false) (hslot : s.cfg.capacity ≤ s.head) :
    getElem s = .fault .slotOutOfRange := by
  simp [getElem, hsome, whenSlot_of_ge hslot]

theorem perform_cycle_of_cdc {s : State} (pCmd cCmd : CmdWord) (hcdc : s.cfg.cdc = true) :
    perform (.cycle pCmd cCmd) s = .refused .noCommonClock := by
  simp [perform, hcdc]

theorem stepSH_of_not_cdc {s : State} (hcdc : s.cfg.cdc = false) : stepSH s = .refused .noSynchroniser := by
  simp [stepSH, hcdc]

theorem stepST_of_not_cdc {s : State} (hcdc : s.cfg.cdc = false) : stepST s = .refused .noSynchroniser := by
  simp [stepST, hcdc]

/-- Settles O15: the slot check stops the access, and the configuration refuses the event. -/
theorem impossibleStepsStopByName : Obligations.ImpossibleStepsStopByName := by
  intro s v pCmd cCmd rest
  refine ⟨fun hr hslot hroom => ?_, fun hr hslot hsome => ?_, fun hcdc henv => ?_, fun hcdc henv => ?_,
    fun hcdc henv => ?_⟩
  · rw [exec_put_p_of_running v hr, putElem_of_ge v hroom hslot]
  · rw [exec_get_c_of_running hr, getElem_of_ge hsome hslot]
  · rw [step_of_cons henv]
    exact perform_cycle_of_cdc pCmd cCmd hcdc
  · rw [step_of_cons henv]
    exact stepSH_of_not_cdc hcdc
  · rw [step_of_cons henv]
    exact stepST_of_not_cdc hcdc

/-! ### What the consumer may read -/

/-- The consumer counts the elements that its oldest sample of `Np` shows and that are not yet got. -/
theorem History.Holds.cCount_eq {h : History} {s : State} (hs : h.Holds s) : cCount s = h.nt.getLastD h.np - h.nc := by
  obtain ⟨-, hready, hsampled, -⟩ := hs.bounds
  rw [cCount, hs.tview_eq, hs.head_eq, modDistance_residue hready (hsampled.trans_lt hs.np_lt)]

/-- The consumer never counts more than is resident. -/
theorem History.Holds.cCount_le {h : History} {s : State} (hs : h.Holds s) : cCount s ≤ countTrue s := by
  obtain ⟨-, -, hsampled, -⟩ := hs.bounds
  rw [hs.cCount_eq, hs.countTrue_eq]
  exact Nat.sub_le_sub_right hsampled h.nc

theorem isLive_iff_lt {s : State} {i : Nat} :
    isLive s i = true ↔ modDistance s.cfg.capacity i s.head < countTrue s :=
  decide_eq_true_iff

/-- A live slot is written (10_state R23, as O54 states it on integers). -/
theorem State.Inv.read_of_isLive {s : State} {i : Nat} (hinv : s.Inv) (hi : i < s.cfg.capacity)
    (hlive : isLive s i = true) : ∃ v, Memory.read s.slots i = some v := by
  have hcap : 0 < s.cfg.capacity := by omega
  refine liveSlotsHoldValues s i hinv hi ?_
  rw [← modDistance_cast hcap, ← modDistance_cast hcap, Int.ofNat_lt]
  exact isLive_iff_lt.mp hlive

/-! ### What a PUT leaves of the live slots -/

/-- Where the producer sees room, fewer than CAPACITY - 1 elements are resident. -/
theorem History.Holds.countTrue_lt_of_room {h : History} {s : State} (hs : h.Holds s) (hroom : pFull s = false) :
    countTrue s < s.cfg.capacity - 1 := by
  obtain ⟨hsampled, -, -, -⟩ := hs.bounds
  have hput := hs.room hroom
  have hnc := hs.nc_le_np
  rw [hs.countTrue_eq]
  omega

/-- The slot that a PUT stores to is not live: it is as far from `head` as `tail` is. -/
theorem not_isLive_tail (s : State) : ¬ isLive s s.tail = true :=
  fun hlive => lt_irrefl _ (isLive_iff_lt.mp hlive)

theorem History.Holds.countTrue_storeElem {h : History} {s : State} (hs : h.Holds s) (v : Elem)
    (hroom : pFull s = false) : countTrue (storeElem v s) = countTrue s + 1 := by
  have hnp : ({ h with puts := h.puts ++ [v] } : History).np = h.np + 1 := List.length_append
  rw [(hs.store v (hs.room hroom)).countTrue_eq, hs.countTrue_eq, hnp]
  exact Nat.succ_sub hs.nc_le_np

/-- A PUT that stores moves `tail` away from `head`, so a live slot stays live. -/
theorem History.Holds.isLive_storeElem {h : History} {s : State} {i : Nat} (hs : h.Holds s) (v : Elem)
    (hroom : pFull s = false) (hlive : isLive s i = true) : isLive (storeElem v s) i = true := by
  rw [isLive_iff_lt, hs.countTrue_storeElem v hroom]
  exact (isLive_iff_lt.mp hlive).trans (Nat.lt_succ_self _)

/-- A PUT of port P keeps every live slot: it stores past them, or nothing at all. -/
theorem History.Holds.put_keeps_live {h : History} {s t : State} {v : Elem} {i : Nat} (hs : h.Holds s)
    (heffect : Effect (.put .p v) s t) (hlive : isLive s i = true) :
    Memory.read t.slots i = Memory.read s.slots i ∧ isLive t i = true := by
  cases heffect with
  | full => exact ⟨rfl, hlive⟩
  | stored _ _ hroom _ =>
    have hne : i ≠ s.tail := fun heq => not_isLive_tail s (heq ▸ hlive)
    exact ⟨Memory.read_write_other s.slots v hne, hs.isLive_storeElem v hroom hlive⟩
  | illegal _ _ code hcode => cases hcode

/-- Settles O55: the consumer counts live slots only, and a PUT stores to a slot that is not live. -/
theorem noUnpublishedReadNoOverwrite : Obligations.NoUnpublishedReadNoOverwrite := by
  intro s hinv
  have ⟨_, h, hs⟩ := hinv
  refine ⟨fun i hi hreadable => ?_, hs.countTrue_lt_of_room, fun v t hexec i _ hlive => ?_⟩
  · exact hinv.read_of_isLive hi (isLive_iff_lt.mpr (hreadable.trans_le hs.cCount_le))
  · obtain ⟨-, heffect⟩ := exec_next hexec
    exact hs.put_keeps_live heffect hlive

end Sys2Proof.Machine
end

section
/-!
PROOFS. The encoding (spec/30_encoding.md): the two fields of a command word (R49), what each `op` decodes to (R50, R55), and the
legal port of each command (R53, R54).
-/

namespace Sys2Proof

/-! ### The fields of a word -/

@[simp] theorem opField_append (op : BitVec 2) (data : Elem) : opField (op ++ data) = op :=
  BitVec.extractLsb'_append_eq_left

@[simp] theorem dataField_append (op : BitVec 2) (data : Elem) : dataField (op ++ data) = data :=
  BitVec.extractLsb'_append_eq_right

@[simp] theorem opField_encode (i : Instr) : opField (encode i) = i.op :=
  opField_append i.op i.data

@[simp] theorem dataField_encode (i : Instr) : dataField (encode i) = i.data :=
  dataField_append i.op i.data

/-! ### What a word decodes to, by its `op` -/

theorem decode_of_op_nop {w : CmdWord} (q : Port) (h : opField w = 0b00#2) : decode q w = .nop q := by
  simp [decode, h]

theorem decode_of_op_put {w : CmdWord} (q : Port) (h : opField w = 0b01#2) : decode q w = .put q (dataField w) := by
  simp [decode, h]

theorem decode_of_op_get {w : CmdWord} (q : Port) (h : opField w = 0b10#2) : decode q w = .get q := by
  simp [decode, h]

theorem decode_of_op_reserved {w : CmdWord} (q : Port) (h : opField w = 0b11#2) : decode q w = .reservedOp11 q := by
  simp [decode, h]

theorem opField_cases (w : CmdWord) :
    opField w = 0b00#2 ∨ opField w = 0b01#2 ∨ opField w = 0b10#2 ∨ opField w = 0b11#2 := by
  generalize opField w = op
  revert op
  decide

/-- The fields of a command are read from the word that decodes to it: its `op`, and for PUT its element. -/
theorem fields_decode (q : Port) (w : CmdWord) :
    (decode q w).op = opField w ∧ ∀ (q' : Port) (v : Elem), decode q w = .put q' v → dataField w = v := by
  obtain h | h | h | h := opField_cases w
  · rw [decode_of_op_nop q h, h]
    exact ⟨rfl, nofun⟩
  · rw [decode_of_op_put q h, h]
    refine ⟨rfl, fun q' v hput => ?_⟩
    injection hput
  · rw [decode_of_op_get q h, h]
    exact ⟨rfl, nofun⟩
  · rw [decode_of_op_reserved q h, h]
    exact ⟨rfl, nofun⟩

/-- A word whose fields are those of a command decodes to it on the command's port. -/
theorem decode_of_fields {w : CmdWord} {i : Instr} (hop : opField w = i.op)
    (hdata : ∀ (q : Port) (v : Elem), i = .put q v → dataField w = v) : decode i.port w = i := by
  cases i with
  | nop q => exact decode_of_op_nop q hop
  | put q v => rw [← hdata q v rfl]; exact decode_of_op_put q hop
  | get q => exact decode_of_op_get q hop
  | reservedOp11 q => exact decode_of_op_reserved q hop

theorem decode_eq_iff {q : Port} {w : CmdWord} {i : Instr} :
    decode q w = i ↔ i.port = q ∧ opField w = i.op ∧ ∀ (q' : Port) (v : Elem), i = .put q' v → dataField w = v := by
  constructor
  · rintro rfl
    obtain ⟨hop, hdata⟩ := fields_decode q w
    exact ⟨Machine.port_decode q w, hop.symm, hdata⟩
  · rintro ⟨rfl, hop, hdata⟩
    exact decode_of_fields hop hdata

/-- Every command is read back from its word (30_encoding R49, R55). -/
theorem decode_encode (i : Instr) : decode i.port (encode i) = i :=
  decode_of_fields (opField_encode i) (by rintro q v rfl; exact dataField_encode (.put q v))

/-- Settles O5: the word of a command carries its `op` and its element, and decoding reads those fields and no other. -/
theorem decodeAndEncodeAgree : Obligations.DecodeAndEncodeAgree :=
  ⟨decode_encode, fun _ _ _ => decode_eq_iff⟩

/-- Settles O3: each `op` in front of any data is its own case of the decoder. -/
theorem decodeFollowsTheOpcodeMap : Obligations.DecodeFollowsTheOpcodeMap := by
  intro q d
  have hput : decode q (0b01#2 ++ d) = .put q d := by
    rw [decode_of_op_put q (opField_append _ d), dataField_append]
  exact ⟨⟨decode_of_op_nop q (opField_append _ d), rfl⟩, ⟨hput, rfl, rfl⟩,
    ⟨decode_of_op_get q (opField_append _ d), rfl, rfl⟩, ⟨decode_of_op_reserved q (opField_append _ d), rfl⟩⟩

/-- Settles O4: fourteen fixed words, each decoded by computation. -/
theorem specWordsDecodeAsListed : Obligations.SpecWordsDecodeAsListed := by
  unfold Obligations.SpecWordsDecodeAsListed
  decide

/-! ### Legality -/

/-- Settles O6: NOP is legal on both ports, PUT on P and GET on C alone, and the reserved word on none. -/
theorem legalCommandsHaveNoVerdict : Obligations.LegalCommandsHaveNoVerdict := by
  intro i
  cases i with
  | nop q => exact ⟨fun _ => rfl, fun _ => rfl⟩
  | put q v => simp [Instr.wf, Instr.verdict]
  | get q => simp [Instr.wf, Instr.verdict]
  | reservedOp11 q => exact ⟨nofun, nofun⟩

end Sys2Proof
end

section
/-!
PROOFS. The callers' side (spec/30_encoding.md, section 3): the words and immediates of the assembler (R57, R58), the
pseudo-commands (R59, R60) and the index of a script (R61), which a reset takes back (70_reset_and_hazards R121).
-/

namespace Sys2Proof.Machine

open Sys2Proof

/-! ### Words and immediates -/

theorem nop_word_eq_encode : ScriptCmd.nop.word = encode (.nop .p) := by decide

theorem get_word_eq_encode : ScriptCmd.get.word = encode (.get .c) := by decide

/-- The assembler's sum, `op` 01 above the element, is the concatenation of the two fields. -/
theorem put_word_eq_encode (v : Elem) (q : Port) : 0x100000000#34 + v.setWidth 34 = encode (.put q v) := by
  rw [BitVec.setWidth_eq_append (by decide)]
  exact BitVec.append_zero_add_zero_append (x := 0b01#2) (y := v)

theorem encode_decimal_of_mem {n : Int} (hlow : -2147483648 ≤ n) (hhigh : n ≤ 2147483647) :
    (Imm.decimal n).encode = .ok (BitVec.ofInt 32 n) :=
  if_pos ⟨hlow, hhigh⟩

theorem encode_decimal_of_not_mem {n : Int} (h : n < -2147483648 ∨ 2147483647 < n) :
    (Imm.decimal n).encode = .error .immediateOutOfRange :=
  if_neg (by omega)

theorem encode_hex_of_le {n : Nat} (h : n ≤ 0xFFFFFFFF) : (Imm.hex n).encode = .ok (BitVec.ofNat 32 n) :=
  if_pos h

theorem encode_hex_of_gt {n : Nat} (h : 0xFFFFFFFF < n) : (Imm.hex n).encode = .error .immediateOutOfRange :=
  if_neg (Nat.not_le.mpr h)

/-- Settles O58: a word is its fields put together, and an immediate in range is the value of its pattern. -/
theorem assemblerEncodesCommands : Obligations.AssemblerEncodesCommands := by
  refine ⟨fun v => ⟨nop_word_eq_encode, put_word_eq_encode v .p, get_word_eq_encode, put_word_eq_encode v .p,
      get_word_eq_encode⟩,
    fun n hlow hhigh => ⟨_, encode_decimal_of_mem hlow hhigh, ?_⟩, fun n h => encode_decimal_of_not_mem h,
    fun n h => ⟨_, encode_hex_of_le h, ?_⟩, fun n h => encode_hex_of_gt h⟩
  · exact BitVec.toInt_ofInt_eq_self (by decide) hlow (by omega)
  · exact Nat.mod_eq_of_lt (by omega)

/-! ### Scripts -/

/-- The pseudo-commands, which wait for the response 1 (30_encoding R59, R60). -/
def ScriptCmd.retries : ScriptCmd → Bool
  | .nop => false
  | .put _ => false
  | .get => false
  | .putRetry _ => true
  | .getRetry => true

theorem ScriptCmd.retries_iff {cmd : ScriptCmd} : cmd.retries = true ↔ (∃ v, cmd = .putRetry v) ∨ cmd = .getRetry := by
  cases cmd <;> simp [ScriptCmd.retries]

theorem Script.word_of_getElem? {sc : Script} {cmd : ScriptCmd} (h : sc.cmds[sc.si]? = some cmd) : sc.word = cmd.word := by
  simp [Script.word, h]

theorem Script.word_of_ended {sc : Script} (h : sc.cmds.length ≤ sc.si) : sc.word = ScriptCmd.nop.word := by
  simp [Script.word, List.getElem?_eq_none h]

theorem Script.advance_of_ended {sc : Script} (ok : Bool) (h : sc.cmds.length ≤ sc.si) : sc.advance ok = sc := by
  simp [Script.advance, List.getElem?_eq_none h]

/-- A script stays at its entry only for a pseudo-command that did not succeed. -/
theorem Script.advance_of_getElem? {sc : Script} {cmd : ScriptCmd} (ok : Bool) (h : sc.cmds[sc.si]? = some cmd) :
    sc.advance ok = if cmd.retries && !ok then sc else { sc with si := sc.si + 1 } := by
  cases cmd with
  | nop | put | get => simp [Script.advance, ScriptCmd.retries, h]
  | putRetry | getRetry => cases ok <;> simp [Script.advance, ScriptCmd.retries, h]

/-- A reset in a bench always completes: a new run of a block at reset, both scripts at their beginning. -/
theorem Bench.turn_rst (b : Bench) :
    Bench.turn .rst b = .next { run := Run.begin b.run.state.cfg, p := b.p.restart, c := b.c.restart } := by
  rw [Bench.turn, Bench.event, Run.present_rst]
  rfl

/-- Settles O59: the index waits only on a pseudo-command whose step did not succeed, and a reset takes it to 0. -/
theorem scriptsAdvanceByResponse : Obligations.ScriptsAdvanceByResponse := by
  refine ⟨fun sc ok => ⟨fun cmd hcmd => ⟨Script.word_of_getElem? hcmd, fun hmoves => ?_, ?_⟩, fun hend => ?_⟩,
    Bench.turn_rst⟩
  · have hpass : (cmd.retries && !ok) = false := by
      obtain rfl | ⟨hput, hget⟩ := hmoves
      · simp
      · have hno : ¬ cmd.retries = true := by simp [ScriptCmd.retries_iff, hput, hget]
        simp [hno]
    rw [Script.advance_of_getElem? ok hcmd, hpass]
    rfl
  · rintro ⟨rfl, hretry⟩
    have hstays : Script.advance false sc = sc := by
      simp [Script.advance_of_getElem? false hcmd, ScriptCmd.retries_iff.mpr hretry]
    exact ⟨hstays, congrArg Script.word hstays⟩
  · exact ⟨(Script.word_of_ended hend).trans nop_word_eq_encode, Script.advance_of_ended ok hend⟩

end Sys2Proof.Machine
end

section
/-!
PROOFS. The operations (spec/40_fifo_ops.md), first part: which command a step runs (R61, R66, R68), what each command answers
(R63 to R65) and what it leaves unchanged, and the responses (R71).
-/

namespace Sys2Proof.Machine

open Sys2Proof

/-! ### The command a step runs -/

theorem perform_presentOn (q : Port) (w : CmdWord) (s : State) : perform (presentOn q w) s = exec (decode q w) s := by
  cases q with
  | p => rfl
  | c => rfl

theorem decodeTableWord_eq_some {nbits w : Nat} {i : Instr} (h : decodeTableWord nbits w = some i) :
    w < 2 ^ 34 ∧ decode (tablePort (BitVec.ofNat 34 w)) (BitVec.ofNat 34 w) = i := by
  unfold decodeTableWord at h
  split at h
  · exact ⟨‹_›, Option.some.inj h⟩
  · cases h

theorem withFetchWord_of_lt {s : State} {w : Nat} (nbits : Nat) (h : w < 2 ^ 34) :
    s.withFetchWord nbits w = setEnv (presentOn (tablePort (BitVec.ofNat 34 w)) (BitVec.ofNat 34 w) :: s.env) s :=
  if_pos h

/-- Settles O7: the word is presented as the next event, on the port for which the table decodes it. -/
theorem placedWordRunsInTheNextStep : Obligations.PlacedWordRunsInTheNextStep := by
  intro s nbits w i hdecode
  obtain ⟨hw, hi⟩ := decodeTableWord_eq_some hdecode
  rw [withFetchWord_of_lt nbits hw, step_of_cons (setEnv_env _ s), perform_presentOn, hi, setEnv_setEnv, setEnv_self]

theorem exec_nop_of_running {s : State} (q : Port) (hr : s.fault = none) :
    exec (.nop q) s = .next (respond Resp.quiet s) :=
  exec_of_effect hr (.nop q s)

/-- Settles O9: NOP has one effect. -/
theorem nopCompletesAndWritesNothing : Obligations.NopCompletesAndWritesNothing :=
  fun q _ hr => exec_nop_of_running q hr

theorem idle_eq_exec_nop (q : Port) (s : State) : idle s = exec (.nop q) s := rfl

/-- Merging a command of P that records no fault with a NOP of C leaves what the command did. -/
theorem Effect.merge_nop_c {i : Instr} {s sp : State} (h : Effect i s sp) (hport : i.port = .p) (hf : sp.fault = none) :
    mergePorts s sp (respond Resp.quiet s) = sp := by
  cases h with
  | nop => rfl
  | full => rfl
  | stored => rfl
  | empty => cases hport
  | taken => cases hport
  | unwritten => cases hport
  | illegal => cases hf

/-- Merging a command of C that records no fault with a NOP of P leaves what the command did. -/
theorem Effect.merge_nop_p {i : Instr} {s sc : State} (h : Effect i s sc) (hport : i.port = .c) (hf : sc.fault = none) :
    mergePorts s (respond Resp.quiet s) sc = sc := by
  cases h with
  | nop => rfl
  | full => cases hport
  | stored => cases hport
  | empty => rfl
  | taken => rfl
  | unwritten => cases hf
  | illegal => cases hf

/-- A cycle in which C presents NOP is a step of P alone (40_fifo_ops R68). -/
theorem bothPorts_nop_c {i : Instr} (hport : i.port = .p) (q : Port) (s : State) :
    bothPorts i (.nop q) s = exec i s := by
  cases hexec : exec i s with
  | next sp =>
    obtain ⟨hr, heffect⟩ := exec_next hexec
    cases hf : sp.fault with
    | none => rw [bothPorts_of_effects hr heffect hf (.nop q s) hr, heffect.merge_nop_c hport hf]
    | some fault => exact bothPorts_of_fault_p hr heffect (by simp [hf])
  | fault r => simp [bothPorts, hexec]
  | refused r => simp [bothPorts, hexec]

/-- A cycle in which P presents NOP is a step of C alone (40_fifo_ops R68). -/
theorem bothPorts_nop_p {i : Instr} (hport : i.port = .c) (q : Port) (s : State) :
    bothPorts (.nop q) i s = exec i s := by
  cases hrun : s.fault with
  | some recorded =>
    obtain ⟨code, port⟩ := recorded
    simp [bothPorts, exec_of_faulted hrun]
  | none =>
    cases hexec : exec i s with
    | next sc =>
      obtain ⟨-, heffect⟩ := exec_next hexec
      cases hf : sc.fault with
      | none => rw [bothPorts_of_effects hrun (.nop q s) hrun heffect hf, heffect.merge_nop_p hport hf]
      | some fault => exact bothPorts_of_fault_c hrun (.nop q s) hrun heffect (by simp [hf])
    | fault r => simp [bothPorts, exec_nop_of_running q hrun, hrun, hexec]
    | refused r => simp [bothPorts, exec_nop_of_running q hrun, hrun, hexec]

theorem perform_cycle_of_not_cdc {s : State} (pCmd cCmd : CmdWord) (hcdc : s.cfg.cdc = false) :
    perform (.cycle pCmd cCmd) s = bothPorts (decode .p pCmd) (decode .c cCmd) s := by
  simp [perform, hcdc]

/-- Settles O8: the other port's NOP adds nothing to the merge, and an idle step is a NOP by definition. -/
theorem stepRunsTheDecodedCommand : Obligations.StepRunsTheDecodedCommand := by
  intro s w nop rest hnop
  refine ⟨fun henv => step_of_cons henv, fun henv => step_of_cons henv, fun hcdc henv => ?_, fun hcdc henv => ?_,
    fun henv => ⟨?_, ?_⟩⟩
  · rw [step_of_cons henv, perform_cycle_of_not_cdc (s := setEnv rest s) w nop hcdc, decode_of_op_nop .c hnop]
    exact bothPorts_nop_c (port_decode .p w) .c (setEnv rest s)
  · rw [step_of_cons henv, perform_cycle_of_not_cdc (s := setEnv rest s) nop w hcdc, decode_of_op_nop .p hnop]
    exact bothPorts_nop_p (port_decode .c w) .p (setEnv rest s)
  · rw [step_of_nil henv, idle_eq_exec_nop .p]
  · rw [step_of_nil henv, idle_eq_exec_nop .c]

/-! ### What PUT and GET answer -/

/-- The increment of a pointer is `(p + 1) mod CAPACITY` (41_status R72). -/
theorem inc_eq_mod {capacity p : Nat} (h : p < capacity) : inc capacity p = (p + 1) % capacity := by
  simpa only [Nat.mod_eq_of_lt h] using inc_residue (Nat.zero_lt_of_lt h) p

theorem pFull_eq_false_iff {s : State} : pFull s = false ↔ nextTail s ≠ hview s := by
  rw [← Bool.not_eq_true, pFull_iff]

theorem cEmpty_eq_false_iff {s : State} : cEmpty s = false ↔ s.head ≠ tview s := by
  rw [← Bool.not_eq_true, cEmpty_iff]

/-- Settles O10: PUT on P is the full case or the stored one, by the comparison of `next_tail` with `hview`. -/
theorem putStoresOrReportsFull : Obligations.PutStoresOrReportsFull := by
  intro v s hr
  refine ⟨fun htail => ?_, exec_of_effect hr (.illegal (.put .c v) s .portRole rfl)⟩
  have hnext : nextTail s = (s.tail + 1) % s.cfg.capacity := inc_eq_mod htail
  rw [← hnext]
  by_cases hfull : nextTail s = hview s
  · exact ⟨respond Resp.quiet s, exec_of_effect hr (.full v s (pFull_iff.mpr hfull)), fun _ => rfl,
      fun hroom => absurd hfull hroom⟩
  · exact ⟨storeElem v s, exec_of_effect hr (.stored v s (pFull_eq_false_iff.mpr hfull) htail),
      fun heq => absurd heq hfull, fun _ => ⟨rfl, fun i => Memory.read_write s.slots s.tail i v⟩⟩

/-- Settles O11: GET on C is the empty, the unwritten or the taken case, by `tview` and the slot read. -/
theorem getTakesOrReportsEmpty : Obligations.GetTakesOrReportsEmpty := by
  intro s hr
  refine ⟨fun hhead => ?_, exec_of_effect hr (.illegal (.get .p) s .portRole rfl)⟩
  have hnext : nextHead s = (s.head + 1) % s.cfg.capacity := inc_eq_mod hhead
  rw [← hnext]
  exact ⟨fun hempty => exec_of_effect hr (.empty s (cEmpty_iff.mpr hempty)),
    fun hsome hread => exec_of_effect hr (.unwritten s (cEmpty_eq_false_iff.mpr hsome) hhead hread),
    fun hsome v hread => exec_of_effect hr (.taken v s (cEmpty_eq_false_iff.mpr hsome) hhead hread)⟩

/-! ### Frames -/

theorem Effect.eq_of_nop {q : Port} {s t : State} (h : Effect (.nop q) s t) : t = respond Resp.quiet s := by
  cases h with
  | nop => rfl
  | illegal _ _ _ hcode => cases hcode

theorem Effect.eq_of_reservedOp11 {q : Port} {s t : State} (h : Effect (.reservedOp11 q) s t) :
    t = raiseFault .illegalOp q s := by
  cases h with
  | illegal _ _ _ hcode => cases hcode; rfl

/-- Settles O16: NOP sets the responses, the reserved word also the fault register. -/
theorem nopAndReservedFrame : Obligations.NopAndReservedFrame := by
  rintro q i s t (rfl | rfl) hexec
  · obtain rfl := (exec_next hexec).2.eq_of_nop
    exact ⟨rfl, rfl, rfl, rfl, rfl, rfl, fun _ => rfl, fun _ => rfl⟩
  · obtain rfl := (exec_next hexec).2.eq_of_reservedOp11
    exact ⟨rfl, rfl, rfl, rfl, rfl, rfl, nofun, fun _ => rfl⟩

/-- PUT on P records no fault. -/
theorem Effect.put_p_fault {v : Elem} {s t : State} (h : Effect (.put .p v) s t) : t.fault = s.fault := by
  cases h with
  | full => rfl
  | stored => rfl
  | illegal _ _ _ hcode => cases hcode

/-- PUT on either port leaves `head`, and on C it cannot succeed. -/
theorem Effect.put_frame {q : Port} {v : Elem} {s t : State} (h : Effect (.put q v) s t) :
    t.head = s.head ∧ (q = .c → t.out.pOk = false) := by
  cases h with
  | full => exact ⟨rfl, nofun⟩
  | stored => exact ⟨rfl, nofun⟩
  | illegal => exact ⟨rfl, fun _ => rfl⟩

/-- PUT writes slot `tail` and `tail` when it succeeds, and no slot and no cursor when it does not. -/
theorem Effect.put_writes {q : Port} {v : Elem} {s t : State} (h : Effect (.put q v) s t) :
    (t.out.pOk = true ∧ t.slots = Memory.write s.slots s.tail v) ∨
      (t.out.pOk = false ∧ t.tail = s.tail ∧ t.slots = s.slots) := by
  cases h with
  | full => exact .inr ⟨rfl, rfl, rfl⟩
  | stored => exact .inl ⟨rfl, rfl⟩
  | illegal => exact .inr ⟨rfl, rfl, rfl⟩

/-- Settles O17: the one slot PUT writes is slot `tail`, and only when it succeeds. -/
theorem putFrame : Obligations.PutFrame := by
  intro q v s t hexec
  obtain ⟨-, heffect⟩ := exec_next hexec
  obtain ⟨hcfg, hh, ht, henv⟩ := heffect.frame
  obtain ⟨hhead, hport⟩ := heffect.put_frame
  have hfault : q = .p → t.fault = s.fault := by
    rintro rfl
    exact heffect.put_p_fault
  obtain ⟨hok, hslots⟩ | ⟨hno, htail, hslots⟩ := heffect.put_writes
  · refine ⟨hcfg, hhead, hh, ht, henv, hfault, by simp [hok], hport, ?_, by simp [hok]⟩
    simp only [hok, if_true, Option.some.injEq, hslots]
    rintro a rfl b hne
    exact Memory.read_write_other s.slots v hne
  · exact ⟨hcfg, hhead, hh, ht, henv, hfault, fun _ => htail, hport, by simp [hno], fun _ b => by rw [hslots]⟩

/-- GET on either port leaves `tail` and every slot; it moves `head` only when it succeeds, and then records no fault. -/
theorem Effect.get_frame {q : Port} {s t : State} (h : Effect (.get q) s t) :
    t.tail = s.tail ∧ t.slots = s.slots ∧ (t.out.cOk = false → t.head = s.head) ∧
      (t.out.cOk = true → t.fault = s.fault) ∧ (cEmpty s = true → q = .c → t.fault = s.fault) := by
  cases h with
  | empty => exact ⟨rfl, rfl, fun _ => rfl, fun _ => rfl, fun _ _ => rfl⟩
  | taken => exact ⟨rfl, rfl, nofun, fun _ => rfl, fun _ _ => rfl⟩
  | unwritten _ hsome => exact ⟨rfl, rfl, fun _ => rfl, nofun, fun hempty => by simp [hsome] at hempty⟩
  | illegal _ _ _ hcode => exact ⟨rfl, rfl, fun _ => rfl, nofun, fun _ hc => by subst hc; cases hcode⟩

/-- Settles O18: what every command leaves, and what GET leaves besides. -/
theorem getFrame : Obligations.GetFrame := by
  intro q s t hexec
  obtain ⟨-, heffect⟩ := exec_next hexec
  obtain ⟨hcfg, hh, ht, henv⟩ := heffect.frame
  obtain ⟨htail, hslots, hhead, hok, hempty⟩ := heffect.get_frame
  exact ⟨hcfg, htail, hh, ht, henv, hhead, hok, hempty, fun a => by rw [hslots]⟩

/-! ### Responses -/

theorem GetSide.response {i : Option Instr} {s t : State} (h : GetSide i s t) :
    (t.out.cOk = false → t.out.cData = none) ∧
      (t.out.cOk = true → ∃ v, t.out.cData = some v ∧ Memory.read s.slots s.head = some v) := by
  cases h with
  | kept _ out_eq data_eq => exact ⟨fun _ => data_eq, fun hok => by simp [out_eq] at hok⟩
  | taken v _ _ _ read_eq _ out_eq data_eq =>
    exact ⟨fun hno => by simp [out_eq] at hno, fun _ => ⟨v, data_eq, read_eq⟩⟩

/-- No command reads the responses of the step before (40_fifo_ops R71). -/
theorem exec_respond (i : Instr) (r : Resp) (s : State) : exec i (respond r s) = exec i s := by
  cases i with
  | nop => rfl
  | put => rfl
  | get => rfl
  | reservedOp11 => rfl

theorem bothPorts_respond (ip ic : Instr) (r : Resp) (s : State) :
    bothPorts ip ic (respond r s) = bothPorts ip ic s := by
  unfold bothPorts
  rw [exec_respond, exec_respond]
  rfl

theorem perform_respond (e : Event) (r : Resp) (s : State) : perform e (respond r s) = perform e s := by
  cases e with
  | cycle pCmd cCmd => simp only [perform, bothPorts_respond, respond_cfg]
  | stepP pCmd => exact exec_respond (decode .p pCmd) r s
  | stepC cCmd => exact exec_respond (decode .c cCmd) r s
  | stepSH => rfl
  | stepST => rfl
  | rst => rfl
  | rstPart => rfl

theorem step_respond (r : Resp) (s : State) : step (respond r s) = step s := by
  cases henv : s.env with
  | nil =>
    rw [step_of_nil henv, step_of_nil (s := respond r s) henv]
    rfl
  | cons e rest =>
    rw [step_of_cons henv, step_of_cons (s := respond r s) henv]
    exact perform_respond e r (setEnv rest s)

/-- Settles O45: each side of the queue gives its own response, and no event reads the old ones. -/
theorem responsesBelongToTheirStep : Obligations.ResponsesBelongToTheirStep := by
  refine ⟨fun s t hstep => ?_, fun s r => step_respond r s⟩
  obtain hagents | ⟨_, _, rest, -, rfl⟩ := step_cases hstep
  · obtain ⟨hno, hok⟩ := hagents.get.response
    refine ⟨hno, hok, fun hput => ?_⟩
    obtain ⟨-, hwriter⟩ := hagents.put.tail_writer
    obtain ⟨-, v, hcommand⟩ := hwriter hput
    obtain ⟨e, he, hinstr⟩ := Option.bind_eq_some_iff.mp hcommand
    exact ⟨e, v, he, hinstr⟩
  · exact ⟨fun _ => rfl, nofun, nofun⟩

end Sys2Proof.Machine
end

section
/-!
PROOFS. The operations, second part: a PUT and a GET in one cycle (spec/40_fifo_ops.md R67, R68), and the laws of whole executions
(R69, R70).
-/

namespace Sys2Proof.Machine

open Sys2Proof

/-! ### Order and capacity -/

/-- Settles O52: the history of an execution says so (10_state R33). -/
theorem fifoOrder : Obligations.FifoOrder :=
  fun _ _ hex => List.prefix_iff_eq_take.mpr hex.holds.fifo

/-- At most CAPACITY - 1 elements are resident (40_fifo_ops R70). -/
theorem History.Holds.countTrue_le {h : History} {s : State} (hs : h.Holds s) : countTrue s ≤ s.cfg.capacity - 1 := by
  have hroom := hs.np_lt
  rw [hs.countTrue_eq]
  omega

/-- With CAPACITY - 1 elements resident the producer sees full, whatever its view. -/
theorem History.Holds.pFull_of_countTrue {h : History} {s : State} (hs : h.Holds s)
    (hcount : countTrue s = s.cfg.capacity - 1) : pFull s = true := by
  by_contra hroom
  exact absurd hcount (hs.countTrue_lt_of_room (Bool.eq_false_iff.mpr hroom)).ne

/-- With no element resident the consumer sees empty, whatever its view. -/
theorem History.Holds.cEmpty_of_countTrue {h : History} {s : State} (hs : h.Holds s) (hcount : countTrue s = 0) :
    cEmpty s = true := by
  by_contra hsome
  have hready := hs.ready (Bool.eq_false_iff.mpr hsome)
  obtain ⟨-, -, hsampled, -⟩ := hs.bounds
  rw [hs.countTrue_eq] at hcount
  omega

/-- A PUT that responds `p_ok = 1` stored its element. -/
theorem Effect.eq_storeElem {q : Port} {v : Elem} {s t : State} (h : Effect (.put q v) s t) (hok : t.out.pOk = true) :
    pFull s = false ∧ t = storeElem v s := by
  cases h with
  | full => cases hok
  | stored _ _ hroom => exact ⟨hroom, rfl⟩
  | illegal => cases hok

/-- Settles O53: the resident elements are those put and not yet got, and both views are conservative. -/
theorem capacityLaw : Obligations.CapacityLaw := by
  refine ⟨fun h s hex => hex.holds.countTrue_le, ?_, ?_, ?_⟩
  · rintro s v ⟨-, h, hs⟩ hr hcount
    exact exec_of_effect hr (.full v s (hs.pFull_of_countTrue hcount))
  · rintro s ⟨-, h, hs⟩ hr hcount
    exact exec_of_effect hr (.empty s (hs.cEmpty_of_countTrue hcount))
  · rintro s t v v' ⟨-, h, hs⟩ hcap hexec hok
    obtain ⟨hr, heffect⟩ := exec_next hexec
    obtain ⟨hroom, rfl⟩ := heffect.eq_storeElem hok
    have hstored := hs.store v (hs.room hroom)
    have hcount : countTrue (storeElem v s) = (storeElem v s).cfg.capacity - 1 := by
      have hmost := hstored.countTrue_le
      have hmore := hs.countTrue_storeElem v hroom
      rw [storeElem_cfg, hcap] at hmost ⊢
      omega
    exact exec_of_effect (s := storeElem v s) hr (.full v' _ (hstored.pFull_of_countTrue hcount))

/-! ### A PUT and a GET in one cycle -/

theorem inv_setEnv {s : State} (h : s.Inv) (es : List Event) : (setEnv es s).Inv := by
  obtain ⟨hwf, hist, hs⟩ := h
  exact ⟨hwf, hist, hs.congr rfl rfl rfl rfl rfl rfl⟩

theorem hview_of_not_cdc {s : State} (hcdc : s.cfg.cdc = false) : hview s = s.head := by
  simp [hview, hcdc]

theorem tview_of_not_cdc {s : State} (hcdc : s.cfg.cdc = false) : tview s = s.tail := by
  simp [tview, hcdc]

/-- The slot a GET takes is written. -/
theorem State.Inv.read_head {s : State} (hinv : s.Inv) (hsome : cEmpty s = false) :
    ∃ v, Memory.read s.slots s.head = some v := by
  obtain ⟨-, h, hs⟩ := hinv
  obtain ⟨-, -, hsampled, -⟩ := hs.bounds
  have hnp : h.nc < h.np := (hs.ready hsome).trans_le hsampled
  exact ⟨h.puts[h.nc]'hnp, by rw [hs.head_eq, hs.resident h.nc le_rfl hnp, List.getElem?_eq_getElem hnp]⟩

/-- On a running state that meets the invariant the cycle merges the two effects: PUT records no fault, and GET finds its slot
written. -/
theorem State.Inv.step_put_get {s : State} {pCmd cCmd : CmdWord} {v : Elem} {rest : List Event} (hinv : s.Inv)
    (hcdc : s.cfg.cdc = false) (hr : s.fault = none) (henv : s.env = .cycle pCmd cCmd :: rest)
    (hput : decode .p pCmd = .put .p v) (hget : decode .c cCmd = .get .c) :
    ∃ sp sc, Effect (.put .p v) (setEnv rest s) sp ∧ Effect (.get .c) (setEnv rest s) sc ∧ sc.fault = none ∧
      step s = .next (mergePorts (setEnv rest s) sp sc) := by
  have hinv' := inv_setEnv hinv rest
  have ⟨hwf, _⟩ := hinv'
  obtain ⟨sp, ep⟩ := Effect.exists_of_wf hwf (.put .p v)
  obtain ⟨sc, ec⟩ := Effect.exists_of_wf hwf (.get .c)
  have hp : sp.fault = none := ep.put_p_fault.trans hr
  have hc : sc.fault = none := by
    cases ec with
    | empty => exact hr
    | taken => exact hr
    | unwritten _ hsome _ hread =>
      obtain ⟨w, hw⟩ := hinv'.read_head hsome
      cases hread.symm.trans hw
    | illegal _ _ _ hcode => cases hcode
  refine ⟨sp, sc, ep, ec, hc, ?_⟩
  rw [step_of_cons henv, perform_cycle_of_not_cdc (s := setEnv rest s) pCmd cCmd hcdc, hput, hget]
  exact bothPorts_of_effects (s := setEnv rest s) hr ep hp ec hc

/-- PUT on a block without CDC, by its full test on the live cursors. -/
theorem Effect.put_of_not_cdc {v : Elem} {s sp : State} (h : Effect (.put .p v) s sp) (hcdc : s.cfg.cdc = false) :
    sp.tail = (if inc s.cfg.capacity s.tail = s.head then s.tail else inc s.cfg.capacity s.tail) ∧
      sp.out.pOk = (inc s.cfg.capacity s.tail != s.head) ∧
      ∀ i, Memory.read sp.slots i =
        if inc s.cfg.capacity s.tail ≠ s.head ∧ i = s.tail then some v else Memory.read s.slots i := by
  cases h with
  | full _ _ hfull =>
    have heq : inc s.cfg.capacity s.tail = s.head := (pFull_iff.mp hfull).trans (hview_of_not_cdc hcdc)
    simp [heq, Resp.quiet]
  | stored _ _ hroom =>
    have hne : inc s.cfg.capacity s.tail ≠ s.head := hview_of_not_cdc hcdc ▸ pFull_eq_false_iff.mp hroom
    simp [hne, nextTail, Memory.read_write]
  | illegal _ _ _ hcode => cases hcode

/-- GET that records no fault on a block without CDC, by its empty test on the live cursors. -/
theorem Effect.get_of_not_cdc {s sc : State} (h : Effect (.get .c) s sc) (hcdc : s.cfg.cdc = false)
    (hf : sc.fault = none) :
    sc.head = (if s.head = s.tail then s.head else inc s.cfg.capacity s.head) ∧
      sc.out.cOk = (s.head != s.tail) ∧
      sc.out.cData = if s.head = s.tail then none else Memory.read s.slots s.head := by
  cases h with
  | empty _ hempty =>
    have heq : s.head = s.tail := (cEmpty_iff.mp hempty).trans (tview_of_not_cdc hcdc)
    simp [heq, Resp.quiet]
  | taken v _ hsome _ hread =>
    have hne : s.head ≠ s.tail := tview_of_not_cdc hcdc ▸ cEmpty_eq_false_iff.mp hsome
    simp [hne, nextHead, hread]
  | unwritten => cases hf
  | illegal => cases hf

/-- Settles O35: the merge takes `tail`, the slots and `p_ok` from PUT, and `head`, `c_ok` and `c_data` from GET. -/
theorem simultaneousPutAndGetMerge : Obligations.SimultaneousPutAndGetMerge := by
  intro s pCmd cCmd v rest hinv hcdc hr henv hput hget
  obtain ⟨sp, sc, ep, ec, hf, hstep⟩ := hinv.step_put_get hcdc hr henv hput hget
  obtain ⟨htail, hpOk, hslots⟩ := ep.put_of_not_cdc hcdc
  obtain ⟨hhead, hcOk, hdata⟩ := ec.get_of_not_cdc hcdc hf
  simp only [setEnv_cfg, setEnv_tail, setEnv_head, setEnv_slots] at htail hpOk hslots hhead hcOk hdata
  refine ⟨_, hstep, ?_, hslots, fun _ hok => ?_⟩
  · rw [mergePorts, htail, hpOk, hhead, hcOk, hdata]
    rfl
  · simpa [hcOk] using hok

theorem inc_injective (capacity : Nat) : Function.Injective (inc capacity) := by
  intro a b h
  unfold inc at h
  split at h <;> split at h <;> omega

/-- A GET of the same cycle leaves room for the PUT: it moves `head` away from `next_tail`. -/
theorem Effect.room_after_get {s sc : State} (h : Effect (.get .c) s sc) (hcdc : s.cfg.cdc = false)
    (hroom : pFull s = false) : pFull sc = false := by
  cases h with
  | empty => exact hroom
  | taken v _ hsome =>
    have hne : s.head ≠ s.tail := tview_of_not_cdc hcdc ▸ cEmpty_eq_false_iff.mp hsome
    rw [pFull_eq_false_iff, hview_of_not_cdc (s := takeElem v s) hcdc]
    exact fun heq => hne (inc_injective _ heq).symm
  | unwritten => exact hroom
  | illegal => exact hroom

/-- GET and then the PUT that stores is their merge, up to the responses. -/
theorem Effect.merge_store {s sc : State} (h : Effect (.get .c) s sc) (hf : sc.fault = none) (v : Elem) :
    mergePorts s (storeElem v s) sc =
      { storeElem v sc with out := { pOk := true, cOk := sc.out.cOk, cData := sc.out.cData } } := by
  cases h with
  | empty => rfl
  | taken => rfl
  | unwritten => cases hf
  | illegal => cases hf

/-- A PUT of the same cycle leaves GET its element: it stores to another slot and moves `tail` away from `head`. -/
theorem Effect.taken_after_put {v w : Elem} {s sp : State} (h : Effect (.put .p v) s sp) (hcdc : s.cfg.cdc = false)
    (hsome : cEmpty s = false) (hslot : s.head < s.cfg.capacity) (hread : Memory.read s.slots s.head = some w) :
    Effect (.get .c) sp (takeElem w sp) := by
  cases h with
  | full => exact .taken w _ hsome hslot hread
  | stored _ _ hroom =>
    have hne : s.head ≠ s.tail := tview_of_not_cdc hcdc ▸ cEmpty_eq_false_iff.mp hsome
    have hnext : s.head ≠ nextTail s := (hview_of_not_cdc hcdc ▸ pFull_eq_false_iff.mp hroom).symm
    refine .taken w _ ?_ hslot ((Memory.read_write_other s.slots v hne).trans hread)
    rwa [cEmpty_eq_false_iff, tview_of_not_cdc (s := storeElem v s) hcdc]
  | illegal _ _ _ hcode => cases hcode

/-- PUT and then the GET that takes is their merge, up to the responses. -/
theorem Effect.merge_take {v : Elem} {s sp : State} (h : Effect (.put .p v) s sp) (w : Elem) :
    mergePorts s sp (takeElem w s) =
      { takeElem w sp with out := { pOk := sp.out.pOk, cOk := true, cData := some w } } := by
  cases h with
  | full => rfl
  | stored => rfl
  | illegal _ _ _ hcode => cases hcode

/-- GET first, unless the block is full. -/
theorem merge_eq_get_then_put {v : Elem} {s sp sc : State} (hcdc : s.cfg.cdc = false) (hr : s.fault = none)
    (ep : Effect (.put .p v) s sp) (ec : Effect (.get .c) s sc) (hf : sc.fault = none) (hroom : pFull s = false) :
    ∃ s₁ s₂, exec (.get .c) s = .next s₁ ∧ exec (.put .p v) s₁ = .next s₂ ∧
      mergePorts s sp sc = { s₂ with out := { pOk := s₂.out.pOk, cOk := s₁.out.cOk, cData := s₁.out.cData } } := by
  cases ep with
  | full _ _ hfull => simp [hroom] at hfull
  | stored _ _ _ hslot =>
    obtain ⟨htail, -⟩ := ec.get_frame
    have hslot' : sc.tail < sc.cfg.capacity := by rwa [htail, ec.cfg_eq]
    exact ⟨sc, storeElem v sc, exec_of_effect hr ec,
      exec_of_effect hf (.stored v sc (ec.room_after_get hcdc hroom) hslot'), ec.merge_store hf v⟩
  | illegal _ _ _ hcode => cases hcode

/-- PUT first, unless the block is empty. -/
theorem merge_eq_put_then_get {v : Elem} {s sp sc : State} (hcdc : s.cfg.cdc = false) (hr : s.fault = none)
    (ep : Effect (.put .p v) s sp) (ec : Effect (.get .c) s sc) (hf : sc.fault = none) (hsome : cEmpty s = false) :
    ∃ s₁ s₂, exec (.put .p v) s = .next s₁ ∧ exec (.get .c) s₁ = .next s₂ ∧
      mergePorts s sp sc = { s₂ with out := { pOk := s₁.out.pOk, cOk := s₂.out.cOk, cData := s₂.out.cData } } := by
  cases ec with
  | empty _ hempty => simp [hsome] at hempty
  | taken w _ _ hslot hread =>
    have hp : sp.fault = none := ep.put_p_fault.trans hr
    exact ⟨sp, takeElem w sp, exec_of_effect hr ep,
      exec_of_effect hp (ep.taken_after_put hcdc hsome hslot hread), ep.merge_take w⟩
  | unwritten => cases hf
  | illegal => cases hf

/-- Settles O36: unless the block is full GET leaves room for PUT, and unless it is empty PUT leaves GET its element. -/
theorem simultaneousStepEqualsASerialOne : Obligations.SimultaneousStepEqualsASerialOne := by
  intro s pCmd cCmd v rest hinv hcdc hr henv hput hget
  obtain ⟨sp, sc, ep, ec, hf, hstep⟩ := hinv.step_put_get hcdc hr henv hput hget
  exact ⟨_, hstep, merge_eq_get_then_put (s := setEnv rest s) hcdc hr ep ec hf,
    merge_eq_put_then_get (s := setEnv rest s) hcdc hr ep ec hf⟩

end Sys2Proof.Machine
end

section
/-!
PROOFS. The status outputs (spec/41_status.md): the increment (R72), the failure conditions (R74, R75), the counts (R76), empty and full
(R77), the true status (R79) and the bracket of the counts around it (R80).
-/

namespace Sys2Proof.Machine

open Sys2Proof

/-! ### The increment -/

theorem toNat_ofNat_add_one (w p : Nat) : (BitVec.ofNat w p + 1#w).toNat = (p + 1) % 2 ^ w := by
  rw [BitVec.toNat_add, BitVec.toNat_ofNat, BitVec.toNat_ofNat, ← Nat.add_mod]

/-- Settles O21: the increment is the residue of the next number, which a bit vector of PTR_W bits computes modulo `2^PTR_W`. -/
theorem incrementIsModular : Obligations.IncrementIsModular := by
  refine ⟨fun cfg p hp => ⟨inc_eq_mod hp, inc_lt hp, pointer_lt_two_pow (inc_lt hp), fun hpow => ?_⟩, rfl⟩
  rw [inc_eq_mod hp, toNat_ofNat_add_one, ← hpow]

/-! ### The failure conditions -/

/-- GET on C where the consumer sees an element takes it, or finds its slot unwritten. -/
theorem Effect.get_of_some {s t : State} (h : Effect (.get .c) s t) (hsome : cEmpty s = false) :
    t.out.cOk = true ∨ t.fault = some (.unwrittenSlot, .c) := by
  cases h with
  | empty _ hempty => simp [hsome] at hempty
  | taken => exact .inl rfl
  | unwritten => exact .inr rfl
  | illegal _ _ _ hcode => cases hcode

/-- Settles O23: the status output selects the effect of the command. -/
theorem statusIsTheFailureCondition : Obligations.StatusIsTheFailureCondition := by
  intro s v hwf hr
  obtain ⟨-, htail, -⟩ := wf_iff.mp hwf
  refine ⟨cEmpty_iff, fun hempty => exec_of_effect hr (.empty s hempty), fun hsome => ?_, pFull_iff,
    fun hfull => exec_of_effect hr (.full v s hfull), fun hroom => ?_⟩
  · obtain ⟨t, heffect⟩ := Effect.exists_of_wf hwf (.get .c)
    exact ⟨t, exec_of_effect hr heffect, heffect.get_of_some hsome⟩
  · exact ⟨storeElem v s, exec_of_effect hr (.stored v s hroom htail), rfl⟩

/-! ### The views are pointers -/

/-- What a side sees of the other's cursor is a pointer: a decoded stage with CDC, the live cursor without (10_state R20, R24). -/
theorem view_lt {cfg : Cfg} {chain : List Nat} {live : Nat} (hlive : live < cfg.capacity) (hwf : chainWf cfg chain = true) :
    (if cfg.cdc then gray2bin cfg.ptrW (lastStage cfg chain) else live) < cfg.capacity := by
  split
  · next hcdc =>
    obtain ⟨g, hg, hlast⟩ := lastStage_exists hcdc hwf
    obtain ⟨-, hstages⟩ := chainWf_iff.mp hwf
    obtain ⟨-, hpointer⟩ := hstages g (List.mem_of_getElem? hg)
    rwa [hlast]
  · exact hlive

theorem hview_lt {s : State} (hwf : s.wf = true) : hview s < s.cfg.capacity := by
  obtain ⟨hhead, -, -, -, hchain, -⟩ := wf_iff.mp hwf
  exact view_lt hhead hchain

theorem tview_lt {s : State} (hwf : s.wf = true) : tview s < s.cfg.capacity := by
  obtain ⟨-, htail, -, -, -, hchain⟩ := wf_iff.mp hwf
  exact view_lt htail hchain

/-! ### The counts -/

/-- The distance on integers, as 41_status R76 writes it. -/
theorem modDistance_cast_add {capacity : Nat} (hcap : 0 < capacity) (a b : Nat) :
    (modDistance capacity a b : Int) = ((a : Int) - b + capacity) % capacity := by
  rw [modDistance_cast hcap, Int.add_emod_right]

theorem pCount_lt {s : State} (hwf : s.wf = true) : pCount s < s.cfg.capacity := by
  obtain ⟨-, htail, -⟩ := wf_iff.mp hwf
  exact modDistance_lt htail (hview_lt hwf)

theorem cCount_lt {s : State} (hwf : s.wf = true) : cCount s < s.cfg.capacity := by
  obtain ⟨hhead, -⟩ := wf_iff.mp hwf
  exact modDistance_lt (tview_lt hwf) hhead

theorem pCount_of_not_cdc {s : State} (hcdc : s.cfg.cdc = false) : pCount s = countTrue s := by
  rw [pCount, hview_of_not_cdc hcdc, countTrue]

theorem cCount_of_not_cdc {s : State} (hcdc : s.cfg.cdc = false) : cCount s = countTrue s := by
  rw [cCount, tview_of_not_cdc hcdc, countTrue]

/-- Settles O24: both views are pointers, so each count is the distance of two pointers. -/
theorem countsAreModularDifferences : Obligations.CountsAreModularDifferences := by
  intro s hwf
  obtain ⟨hhead, htail, -⟩ := wf_iff.mp hwf
  have hcap : 0 < s.cfg.capacity := Nat.zero_lt_of_lt hhead
  have hp := pCount_lt hwf
  have hc := cCount_lt hwf
  refine ⟨modDistance_cast_add hcap _ _, modDistance_cast_add hcap _ _, Nat.le_sub_one_of_lt hp, Nat.le_sub_one_of_lt hc,
    pointer_lt_two_pow hp, pointer_lt_two_pow hc, modDistance_of_lt htail (hview_lt hwf),
    modDistance_of_lt (tview_lt hwf) hhead, fun hcdc => ?_⟩
  rw [pCount_of_not_cdc hcdc, cCount_of_not_cdc hcdc]
  exact ⟨rfl, modDistance_cast_add hcap _ _⟩

/-! ### Empty and full as extreme counts -/

theorem modDistance_eq_zero_iff {capacity a b : Nat} (ha : a < capacity) (hb : b < capacity) :
    modDistance capacity a b = 0 ↔ b = a := by
  rw [modDistance_of_lt ha hb]
  split <;> omega

/-- A pointer is as far ahead as it can be exactly when its increment meets the other one. -/
theorem modDistance_eq_pred_iff {capacity a b : Nat} (ha : a < capacity) (hb : b < capacity) :
    modDistance capacity a b = capacity - 1 ↔ inc capacity a = b := by
  rw [modDistance_of_lt ha hb, inc]
  split <;> split <;> omega

/-- `c_empty` is the count 0 of the consumer's view (41_status R77, R80). -/
theorem cEmpty_iff_cCount {s : State} (hwf : s.wf = true) : cEmpty s = true ↔ cCount s = 0 := by
  obtain ⟨hhead, -⟩ := wf_iff.mp hwf
  rw [cEmpty_iff, cCount, modDistance_eq_zero_iff (tview_lt hwf) hhead]

/-- `p_full` is the count CAPACITY - 1 of the producer's view (41_status R77, R80). -/
theorem pFull_iff_pCount {s : State} (hwf : s.wf = true) : pFull s = true ↔ pCount s = s.cfg.capacity - 1 := by
  obtain ⟨-, htail, -⟩ := wf_iff.mp hwf
  rw [pFull_iff, pCount, modDistance_eq_pred_iff htail (hview_lt hwf), nextTail]

/-- The least block with CDC: two slots, two stages in each chain. -/
def leastCdc : Cfg :=
  { capacity := 2, cdc := true, syncStages := 2, accepted := by decide }

/-- After one PUT from reset no synchroniser has stepped: the consumer still sees the block empty, and the PUT filled it. -/
theorem exists_empty_and_full_with_cdc :
    ∃ (h : History) (s : State), Execution h s ∧ s.cfg.cdc = true ∧ cEmpty s = true ∧ pFull s = true :=
  ⟨_, storeElem 1#32 (State.resetOf leastCdc), .step (.reset leastCdc [.stepP (encode (.put .p 1#32))]) rfl, rfl, rfl, rfl⟩

/-- Settles O25: without CDC both outputs read one count, which is not 0 and CAPACITY - 1 at once; with CDC they read two. -/
theorem emptyAndFullExcludeEachOther : Obligations.EmptyAndFullExcludeEachOther := by
  refine ⟨fun s hwf hcdc => ?_, exists_empty_and_full_with_cdc⟩
  have hempty := cEmpty_iff_cCount hwf
  have hfull := pFull_iff_pCount hwf
  have hcount : pCount s = cCount s := by rw [pCount_of_not_cdc hcdc, cCount_of_not_cdc hcdc]
  refine ⟨?_, hempty, hfull, fun htwo => ?_⟩
  · rw [hempty, hfull, hcount]
    have := s.cfg.two_le_capacity
    omega
  · rw [hempty, hfull, hcount]
    have := cCount_lt hwf
    omega

/-! ### The true status -/

theorem emptyTrue_iff {s : State} : emptyTrue s = true ↔ countTrue s = 0 := beq_iff_eq

theorem fullTrue_iff {s : State} : fullTrue s = true ↔ countTrue s = s.cfg.capacity - 1 := beq_iff_eq

/-- Settles O26: the history counts the occupancy, and without CDC the counts that the outputs show are the true one. -/
theorem statusIsTrueWithoutCdc : Obligations.StatusIsTrueWithoutCdc := by
  intro h s hwf hs
  obtain ⟨hhead, -⟩ := wf_iff.mp hwf
  refine ⟨hs.countTrue_eq, modDistance_cast_add (Nat.zero_lt_of_lt hhead) _ _, emptyTrue_iff, fullTrue_iff, fun hcdc => ?_⟩
  have hp := pCount_of_not_cdc hcdc
  have hc := cCount_of_not_cdc hcdc
  refine ⟨Bool.eq_iff_iff.mpr ?_, Bool.eq_iff_iff.mpr ?_, hp, hc⟩
  · rw [cEmpty_iff_cCount hwf, hc, emptyTrue_iff]
  · rw [pFull_iff_pCount hwf, hp, fullTrue_iff]

/-- The producer counts the elements put and not yet got by its oldest sample of `Nc`. -/
theorem History.Holds.pCount_eq {h : History} {s : State} (hs : h.Holds s) : pCount s = h.np - h.nh.getLastD h.nc := by
  obtain ⟨hsampled, -, -, hroom⟩ := hs.bounds
  have hcap := s.cfg.two_le_capacity
  rw [pCount, hs.tail_eq, hs.hview_eq, modDistance_residue (hsampled.trans hs.nc_le_np) (by omega)]

/-- The producer never counts fewer than are resident. -/
theorem History.Holds.countTrue_le_pCount {h : History} {s : State} (hs : h.Holds s) : countTrue s ≤ pCount s := by
  obtain ⟨hsampled, -, -, -⟩ := hs.bounds
  rw [hs.countTrue_eq, hs.pCount_eq]
  exact Nat.sub_le_sub_left hsampled h.np

/-- Settles O27: the consumer counts by an old `Np`, the producer by an old `Nc`. -/
theorem countsBracketTheTrueCount : Obligations.CountsBracketTheTrueCount := by
  rintro s ⟨hwf, h, hs⟩
  exact ⟨hs.cCount_le, hs.countTrue_le_pCount, Nat.le_sub_one_of_lt (pCount_lt hwf),
    fun hcdc => ⟨cCount_of_not_cdc hcdc, pCount_of_not_cdc hcdc⟩, pFull_iff_pCount hwf, cEmpty_iff_cCount hwf⟩

end Sys2Proof.Machine
end

section
/-!
PROOFS. The clock-domain crossing (spec/42_cdc.md), first part: the gray code bit by bit (R83), its decoding (R84) and the one bit that an
increment changes (R85).
-/

namespace Sys2Proof.Machine

open Sys2Proof

/-! ### Encoding and decoding -/

theorem testBit_bin2gray (b i : Nat) : (bin2gray b).testBit i = (b.testBit (i + 1) ^^ b.testBit i) := by
  rw [bin2gray, Nat.testBit_xor, Nat.testBit_shiftRight, Nat.add_comm 1 i, Bool.xor_comm]

theorem testBit_bin2gray_top {w b : Nat} (h : b < 2 ^ (w + 1)) : (bin2gray b).testBit w = b.testBit w := by
  rw [testBit_bin2gray, Nat.testBit_eq_false_of_lt h, Bool.false_xor]

/-- Settles O28: a shift by one moves each bit to its lower neighbour, and nothing stands above the top bit. -/
theorem grayCodeBits : Obligations.GrayCodeBits :=
  fun _ b h => ⟨rfl, testBit_bin2gray_top h, fun i _ => testBit_bin2gray b i, bin2gray_lt h⟩

theorem shiftRight_one_lt {w g : Nat} (h : g < 2 ^ (w + 1)) : g >>> 1 < 2 ^ w := by
  rw [Nat.shiftRight_eq_div_pow]
  omega

theorem gray2bin_lt {w g : Nat} (h : g < 2 ^ w) : gray2bin w g < 2 ^ w := by
  induction w generalizing g with
  | zero => exact Nat.one_pos
  | succ w ih =>
    have hhalf := shiftRight_one_lt h
    exact Nat.xor_lt_two_pow h ((ih hhalf).trans (Nat.pow_lt_pow_succ Nat.one_lt_two))

/-- Encoding inverts decoding on `w`-bit values: halving the decoded value decodes the halved code (42_cdc R84). -/
theorem bin2gray_gray2bin {w g : Nat} (h : g < 2 ^ w) : bin2gray (gray2bin w g) = g := by
  induction w generalizing g with
  | zero =>
    obtain rfl : g = 0 := Nat.lt_one_iff.mp h
    rfl
  | succ w ih =>
    have hhalf := shiftRight_one_lt h
    have hshift : gray2bin (w + 1) g >>> 1 = gray2bin w (g >>> 1) :=
      calc gray2bin (w + 1) g >>> 1
          = g >>> 1 ^^^ gray2bin w (g >>> 1) >>> 1 := by rw [gray2bin, Nat.shiftRight_xor_distrib]
        _ = bin2gray (gray2bin w (g >>> 1)) ^^^ gray2bin w (g >>> 1) >>> 1 := by rw [ih hhalf]
        _ = gray2bin w (g >>> 1) := Nat.xor_xor_cancel_right ..
    rw [bin2gray, hshift, gray2bin, Nat.xor_xor_cancel_right]

/-- Settles O29: the bits of a code are those of the encoding of its decoding. -/
theorem grayDecodingInvertsEncoding : Obligations.GrayDecodingInvertsEncoding := by
  intro w g h
  have hlt := gray2bin_lt h
  have hinv := bin2gray_gray2bin h
  refine ⟨?_, fun i _ => ?_, hlt, hinv, bin2gray_lt h, gray2bin_bin2gray h⟩
  · rw [← testBit_bin2gray_top hlt, hinv]
  · rw [← congrArg (Nat.testBit · i) hinv, testBit_bin2gray, Bool.xor_left_comm]
    simp

/-! ### One increment -/

theorem bin2gray_xor (a b : Nat) : bin2gray (a ^^^ b) = bin2gray a ^^^ bin2gray b := by
  simp only [bin2gray, Nat.shiftRight_xor_distrib]
  ac_rfl

/-- A run of ones has one neighbouring pair of unequal bits. -/
theorem bin2gray_two_pow_sub_one (k : Nat) : bin2gray (2 ^ (k + 1) - 1) = 2 ^ k := by
  refine Nat.eq_of_testBit_eq fun i => ?_
  rw [testBit_bin2gray, Nat.testBit_two_pow_sub_one, Nat.testBit_two_pow_sub_one, Nat.testBit_two_pow]
  obtain h | rfl | h := Nat.lt_trichotomy i k
  · simp [h, Nat.lt_succ_of_lt h, h.ne']
  · simp
  · simp [h.not_gt, h.ne, Nat.not_lt.mpr h]

/-- Adding one flips the trailing ones and the zero above them. -/
theorem exists_xor_add_one (p : Nat) : ∃ k, p ^^^ (p + 1) = 2 ^ (k + 1) - 1 := by
  induction p using Nat.binaryRec with
  | zero => exact ⟨0, rfl⟩
  | bit b m ih =>
    cases b with
    | false => exact ⟨0, (Nat.xor_bit false m true m).trans (by simp)⟩
    | true =>
      obtain ⟨k, hk⟩ := ih
      have hnext : Nat.bit true m + 1 = Nat.bit false (m + 1) := by
        rw [Nat.bit_true_apply, Nat.bit_false_apply]
        omega
      refine ⟨k + 1, ?_⟩
      rw [hnext, Nat.xor_bit, hk, show (true != false) = true from rfl, Nat.bit_true_apply]
      have := Nat.two_pow_pos k
      omega

/-- An increment modulo `2 ^ w` flips a run of low bits of the pointer, at the wrap all of them. -/
theorem exists_xor_inc {w p : Nat} (hw : 1 ≤ w) (hp : p < 2 ^ w) :
    ∃ k < w, p ^^^ inc (2 ^ w) p = 2 ^ (k + 1) - 1 := by
  by_cases hwrap : p = 2 ^ w - 1
  · refine ⟨w - 1, by omega, ?_⟩
    rw [inc, if_pos hwrap, Nat.xor_zero, hwrap, Nat.sub_add_cancel hw]
  · obtain ⟨k, hk⟩ := exists_xor_add_one p
    have hlt : 2 ^ (k + 1) - 1 < 2 ^ w := hk ▸ Nat.xor_lt_two_pow hp (by omega)
    refine ⟨k, ?_, by rw [inc, if_neg hwrap, hk]⟩
    exact Nat.succ_le_of_lt ((Nat.pow_lt_pow_iff_right Nat.one_lt_two).mp (by omega))

/-- Settles O30: the code of a run of ones is one bit, and encoding is linear over xor. -/
theorem grayChangesOneBitPerIncrement : Obligations.GrayChangesOneBitPerIncrement := by
  refine ⟨fun w p hw hp => ⟨?_, ?_, rfl⟩, rfl, rfl⟩
  · obtain ⟨k, hk, hflip⟩ := exists_xor_inc hw hp
    have hcodes : bin2gray p ^^^ bin2gray (inc (2 ^ w) p) = 2 ^ k := by
      rw [← bin2gray_xor, hflip, bin2gray_two_pow_sub_one]
    refine ⟨k, hk, fun j => ?_⟩
    rw [← Bool.xor_iff_ne, ← Nat.testBit_xor, hcodes, Nat.testBit_two_pow, decide_eq_true_iff, eq_comm]
  · rw [← bin2gray_two_pow_sub_one (w - 1), Nat.sub_add_cancel hw]

end Sys2Proof.Machine
end

section
/-!
PROOFS. The clock-domain crossing, second part: the synchronisers' shifts (42_cdc R86, R87), the clock edges (R89), the conservative status
(R92), the views that catch up (R93) and the order of the sample counters (R91).
-/

namespace Sys2Proof.Machine

open Sys2Proof

/-! ### A shift of a chain -/

theorem shiftChain_length {cfg : Cfg} {chain : List Nat} (sample : Nat) (hcdc : cfg.cdc = true)
    (hwf : chainWf cfg chain = true) : (shiftChain cfg sample chain).length = cfg.syncStages := by
  obtain ⟨hlength, -⟩ := chainWf_iff.mp hwf
  simp [shiftChain, hlength, Cfg.stages_of_cdc hcdc]

theorem shiftChain_getElem?_zero {cfg : Cfg} (sample : Nat) (chain : List Nat) (hstages : 0 < cfg.syncStages) :
    (shiftChain cfg sample chain)[0]? = some (bin2gray sample) := by
  rw [shiftChain, List.getElem?_take_of_lt hstages, List.getElem?_cons_zero]

theorem shiftChain_getElem?_succ {cfg : Cfg} {k : Nat} (sample : Nat) (chain : List Nat) (hk : k + 1 < cfg.syncStages) :
    (shiftChain cfg sample chain)[k + 1]? = chain[k]? := by
  rw [shiftChain, List.getElem?_take_of_lt hk, List.getElem?_cons_succ]

/-- Settles O31: on a running block with CDC a synchroniser's step is one shift. -/
theorem synchroniserStepsShift : Obligations.SynchroniserStepsShift := by
  intro s rest hwf hcdc hr
  obtain ⟨-, -, -, -, hh, ht⟩ := wf_iff.mp hwf
  have hstages : 0 < s.cfg.syncStages := by have := s.cfg.two_le_syncStages hcdc; omega
  refine ⟨fun henv => ⟨sampleHead (setEnv rest s), ?_, rfl, shiftChain_length s.head hcdc hh,
      shiftChain_getElem?_zero s.head s.hsync hstages, fun k => shiftChain_getElem?_succ s.head s.hsync⟩,
    fun henv => ⟨sampleTail (setEnv rest s), ?_, rfl, shiftChain_length s.tail hcdc ht,
      shiftChain_getElem?_zero s.tail s.tsync hstages, fun k => shiftChain_getElem?_succ s.tail s.tsync⟩⟩
  · rw [step_of_cons henv]
    exact stepSH_of_running (s := setEnv rest s) hcdc hr
  · rw [step_of_cons henv]
    exact stepST_of_running (s := setEnv rest s) hcdc hr

/-! ### A clock edge -/

theorem GetSide.head_kept {i : Option Instr} {s t : State} (h : GetSide i s t) (hi : i ≠ some (.get .c)) :
    t.head = s.head := by
  cases h with
  | kept head_eq => exact head_eq
  | taken _ command => exact absurd command hi

theorem PutSide.tail_kept {i : Option Instr} {s t : State} (h : PutSide i s t) (hi : ∀ v, i ≠ some (.put .p v)) :
    t.tail = s.tail := by
  cases h with
  | kept tail_eq => exact tail_eq
  | stored v command => exact absurd command (hi v)

theorem edgeClkP_of_running {i : Instr} {s t : State} (h : exec i s = .next t) (hr : t.fault = none) :
    edgeClkP i s = .next { t with hsync := shiftChain s.cfg s.head s.hsync } := by
  simp [edgeClkP, h, hr]

theorem edgeClkC_of_running {i : Instr} {s t : State} (h : exec i s = .next t) (hr : t.fault = none) :
    edgeClkC i s = .next { t with tsync := shiftChain s.cfg s.tail s.tsync } := by
  simp [edgeClkC, h, hr]

/-- Settles O32: a port's command changes neither the cursor that its domain's synchroniser samples nor the chain. -/
theorem clockEdgeIsCommandThenShift : Obligations.ClockEdgeIsCommandThenShift := by
  intro i s t hcdc hexec hr
  obtain ⟨-, heffect⟩ := exec_next hexec
  obtain ⟨hcfg, hh, ht, -⟩ := heffect.frame
  refine ⟨fun hport => ⟨sampleHead t, stepSH_of_running (hcfg ▸ hcdc) hr, ?_⟩,
    fun hport => ⟨sampleTail t, stepST_of_running (hcfg ▸ hcdc) hr, ?_⟩⟩
  · have hhead := (heffect.sides_of_p hport).2.head_kept nofun
    rw [edgeClkP_of_running hexec hr, ← hcfg, ← hhead, ← hh]
    rfl
  · have htail := (heffect.sides_of_c hport).1.tail_kept nofun
    rw [edgeClkC_of_running hexec hr, ← hcfg, ← htail, ← ht]
    rfl

/-! ### The conservative status -/

/-- A run of the block extends an execution. -/
theorem Execution.exists_of_run {h : History} {s t : State} {k : Nat} (hex : Execution h s)
    (hrun : Host.Core.run Sys2Proof.core k s = .next t) : ∃ h', Execution h' t := by
  induction k generalizing h s with
  | zero =>
    cases hrun
    exact ⟨h, hex⟩
  | succ k ih =>
    simp only [Host.Core.run] at hrun
    split at hrun
    · next u hstep => exact ih (hex.step hstep) hrun
    · cases hrun
    · cases hrun

/-- The least block with CDC fills with one element, the consumer sees it and takes it, and the producer has not yet sampled `head`. -/
theorem exists_spurious_full : ∃ (h : History) (s : State), Execution h s ∧ pFull s = true ∧ fullTrue s = false := by
  obtain ⟨h, hex⟩ := (Execution.reset leastCdc
    [.stepP (encode (.put .p 1#32)), .stepST, .stepST, .stepC (encode (.get .c))]).exists_of_run (k := 4) rfl
  exact ⟨h, takeElem 1#32 (sampleTail (sampleTail (storeElem 1#32 (State.resetOf leastCdc)))), hex, rfl, rfl⟩

/-- The least block with CDC holds one element that the consumer has not yet sampled. -/
theorem exists_spurious_empty : ∃ (h : History) (s : State), Execution h s ∧ cEmpty s = true ∧ emptyTrue s = false :=
  ⟨_, storeElem 1#32 (State.resetOf leastCdc), .step (.reset leastCdc [.stepP (encode (.put .p 1#32))]) rfl, rfl, rfl⟩

/-- Settles O33: the true status bounds each side's view, and a cursor not yet sampled makes the view differ. -/
theorem statusIsConservative : Obligations.StatusIsConservative := by
  refine ⟨?_, exists_spurious_full, exists_spurious_empty, ?_⟩
  · rintro s ⟨-, h, hs⟩
    exact ⟨fun hfull => hs.pFull_of_countTrue (fullTrue_iff.mp hfull),
      fun hempty => hs.cEmpty_of_countTrue (emptyTrue_iff.mp hempty)⟩
  · obtain ⟨h, s, hex, -, hboth⟩ := exists_empty_and_full_with_cdc
    exact ⟨h, s, hex, hboth⟩

/-! ### The views catch up -/

theorem Effect.env_eq {i : Instr} {s t : State} (h : Effect i s t) : t.env = s.env := by
  obtain ⟨-, -, -, henv⟩ := h.frame
  exact henv

theorem bothPorts_env {ip ic : Instr} {s t : State} (h : bothPorts ip ic s = .next t) : t.env = s.env := by
  obtain ⟨-, ⟨code, -, rfl⟩ | ⟨sp, code, -, -, -, rfl⟩ | ⟨sp, sc, -, -, -, -, rfl⟩⟩ := bothPorts_next h
  · exact raiseFault_env code ip.port s
  · exact raiseFault_env code ic.port s
  · exact mergePorts_env s sp sc

/-- No event changes the events that come after it. -/
theorem perform_env {e : Event} {s t : State} (h : perform e s = .next t) : t.env = s.env := by
  obtain ⟨_, _, -, -, hboth⟩ | ⟨_, -, hexec⟩ | ⟨_, -, hexec⟩ | ⟨-, -, -, rfl⟩ | ⟨-, -, -, rfl⟩ | ⟨_, _, -, rfl⟩ :=
    perform_next h
  · exact bothPorts_env hboth
  · exact (exec_next hexec).2.env_eq
  · exact (exec_next hexec).2.env_eq
  · exact sampleHead_env s
  · exact sampleTail_env s
  · exact resetBlock_env s

/-- A run of events that presents no reset is a step of the agents and a run of the rest. -/
theorem runEvents_cons_next {e : Event} {es : List Event} {s t : State} (h : runEvents (e :: es) s = .next t)
    (hreset : e.isReset = false) : ∃ u, AgentStep (some e) s u ∧ runEvents es u = .next t := by
  rw [runEvents_cons] at h
  split at h
  · next u hperform =>
    obtain hagents | ⟨_, _, rfl, -⟩ := perform_cases hperform
    · obtain rfl : u.env = es := perform_env hperform
      exact ⟨u, hagents.of_setEnv, h⟩
    · cases hreset
  · cases h
  · cases h

/-- While the cursor that a chain samples stands still, the chain shifts it in once per step of its synchroniser. -/
theorem runEvents_shifts {cursor : State → Nat} {chain : State → List Nat} {sync : Event} {es : List Event} {s t : State}
    (hsetEnv : ∀ u, cursor (setEnv [] u) = cursor u ∧ chain (setEnv [] u) = chain u)
    (hstep : ∀ e ∈ es, ∀ u u', AgentStep (some e) u u' → cursor u' = cursor u ∧
      chain u' = if e = sync then shiftChain u.cfg (cursor u) (chain u) else chain u)
    (hreset : ∀ e ∈ es, e.isReset = false) (hrun : runEvents es s = .next t) :
    t.cfg = s.cfg ∧ cursor t = cursor s ∧
      chain t = (shiftChain s.cfg (cursor s))^[es.count sync] (chain s) := by
  induction es generalizing s with
  | nil =>
    cases hrun
    exact ⟨rfl, hsetEnv s⟩
  | cons e es ih =>
    obtain ⟨u, hagents, hrest⟩ := runEvents_cons_next hrun (hreset e List.mem_cons_self)
    obtain ⟨hcursor, hchain⟩ := hstep e List.mem_cons_self s u hagents
    obtain ⟨hcfg', hcursor', hchain'⟩ := ih (fun e' he' => hstep e' (List.mem_cons_of_mem e he'))
      (fun e' he' => hreset e' (List.mem_cons_of_mem e he')) hrest
    refine ⟨hcfg'.trans hagents.cfg_eq, hcursor'.trans hcursor, ?_⟩
    rw [hchain', hchain, hagents.cfg_eq, hcursor]
    by_cases hsync : e = sync
    · subst hsync
      rw [if_pos rfl, List.count_cons_self, Function.iterate_succ_apply]
    · rw [if_neg hsync, List.count_cons_of_ne hsync]

/-- After `n` shifts of one sample the first `n` stages hold it. -/
theorem iterate_shiftChain_getElem? {cfg : Cfg} {n k : Nat} (sample : Nat) (chain : List Nat) (hk : k < cfg.syncStages)
    (hn : k < n) : ((shiftChain cfg sample)^[n] chain)[k]? = some (bin2gray sample) := by
  induction n generalizing k with
  | zero => cases hn
  | succ n ih =>
    rw [Function.iterate_succ_apply']
    cases k with
    | zero => exact shiftChain_getElem?_zero sample _ hk
    | succ k =>
      rw [shiftChain_getElem?_succ sample _ hk]
      exact ih (by omega) (by omega)

/-- After SYNC_STAGES shifts of one pointer the last stage decodes to it. -/
theorem gray2bin_lastStage_iterate {cfg : Cfg} {n p : Nat} (chain : List Nat) (hcdc : cfg.cdc = true)
    (hp : p < cfg.capacity) (hn : cfg.syncStages ≤ n) :
    gray2bin cfg.ptrW (lastStage cfg ((shiftChain cfg p)^[n] chain)) = p := by
  have hstages := cfg.two_le_syncStages hcdc
  rw [lastStage, List.getD_eq_getElem?_getD, iterate_shiftChain_getElem? p chain (by omega) (by omega), Option.getD_some,
    gray2bin_bin2gray (pointer_lt_two_pow hp)]

/-- Settles O34: a cursor that stands still has reached the last stage after SYNC_STAGES shifts. -/
theorem viewsCatchUpAfterSyncStages : Obligations.ViewsCatchUpAfterSyncStages := by
  intro es s t hwf hcdc hrun hreset
  obtain ⟨hhead, htail, -⟩ := wf_iff.mp hwf
  refine ⟨fun hget hcount => ?_, fun hput hcount => ?_⟩
  · obtain ⟨hcfg, hcursor, hchain⟩ := runEvents_shifts (cursor := State.head) (chain := State.hsync) (sync := .stepSH)
      (fun _ => ⟨rfl, rfl⟩)
      (fun e he u u' hagents => ⟨hagents.get.head_kept (hget e he), by simpa using hagents.hsync_eq⟩) hreset hrun
    rw [hview, hcfg, if_pos hcdc, hcursor, hchain, gray2bin_lastStage_iterate s.hsync hcdc hhead hcount]
  · obtain ⟨hcfg, hcursor, hchain⟩ := runEvents_shifts (cursor := State.tail) (chain := State.tsync) (sync := .stepST)
      (fun _ => ⟨rfl, rfl⟩)
      (fun e he u u' hagents => ⟨hagents.put.tail_kept (hput e he), by simpa using hagents.tsync_eq⟩) hreset hrun
    rw [tview, hcfg, if_pos hcdc, hcursor, hchain, gray2bin_lastStage_iterate s.tsync hcdc htail hcount]

/-! ### The order of the sample counters -/

theorem getLastD_le_of_mem {newest n : Nat} {older : List Nat}
    (horder : (newest :: older).Pairwise fun a b => b ≤ a) (hn : n ∈ newest :: older) : older.getLastD newest ≤ n := by
  have hle := horder.rel_getLast_of_rel_getLast_getLast hn le_rfl
  rwa [List.getLast_eq_getLastD] at hle

/-- The counters of both chains and the live ones, oldest first (42_cdc R91). -/
theorem History.Holds.counters_order {h : History} {s : State} (hs : h.Holds s) :
    (h.nh.reverse ++ [h.nc] ++ h.nt.reverse ++ [h.np]).Pairwise fun a b => a ≤ b := by
  have hnewest : ((h.np :: h.nt) ++ (h.nc :: h.nh)).Pairwise fun newer older => older ≤ newer := by
    refine List.pairwise_append.mpr ⟨hs.nt_order, hs.nh_order, fun newer hnewer older holder => ?_⟩
    calc older ≤ h.nc := (List.mem_cons.mp holder).elim le_of_eq ((List.pairwise_cons.mp hs.nh_order).1 older)
      _ ≤ h.nt.getLastD h.np := hs.nc_le
      _ ≤ newer := getLastD_le_of_mem hs.nt_order hnewer
  simpa using List.pairwise_reverse.mpr hnewest

/-- Settles O51: the history of an execution says so, chain by chain. -/
theorem crossingCountersAreOrdered : Obligations.CrossingCountersAreOrdered := by
  intro h s hex hcdc
  have hs := hex.holds
  have hnh := hs.nh_length.trans (Cfg.stages_of_cdc hcdc)
  refine ⟨hs.hsync_eq, hs.tsync_eq, hnh, hs.nt_length.trans (Cfg.stages_of_cdc hcdc), hs.counters_order,
    fun oldest holdest => ?_⟩
  have hlast : h.nh.getLastD h.nc = oldest := by
    rw [List.getLastD_eq_getLast?, List.getLast?_eq_getElem?, hnh, holdest, Option.getD_some]
  rw [Nat.add_sub_assoc (by have := s.cfg.two_le_capacity; omega), ← hlast]
  exact hs.np_le

end Sys2Proof.Machine
end

section
/-!
PROOFS. The exceptions (spec/60_exceptions.md), first part: the refusals of a bad configuration (R97 to R99).
-/

namespace Sys2Proof

/-- A power of two is the least one that reaches it. -/
theorem isPowerOfTwo_iff {n : Nat} : isPowerOfTwo n = true ↔ ∃ k, n = 2 ^ k := by
  rw [isPowerOfTwo, beq_iff_eq]
  refine ⟨fun h => ⟨clog2 n, h⟩, ?_⟩
  rintro ⟨k, hk⟩
  have hleast : clog2 n ≤ k := Nat.not_lt.mp fun hlt => (two_pow_lt_of_lt_clog2 hlt).ne hk.symm
  refine (le_two_pow_clog2 n).antisymm ?_
  calc 2 ^ clog2 n ≤ 2 ^ k := Nat.pow_le_pow_right Nat.two_pos hleast
    _ = n := hk.symm

theorem cfgRefusal_of_lt {capacity : Nat} (cdc : Bool) (syncStages : Nat) (h : capacity < 2) :
    cfgRefusal capacity cdc syncStages = some .capacity :=
  if_pos h

theorem cfgRefusal_of_not_power {capacity : Nat} (syncStages : Nat) (hcap : 2 ≤ capacity)
    (hpow : ¬ ∃ k, capacity = 2 ^ k) : cfgRefusal capacity true syncStages = some .cdcCapacity := by
  rw [← isPowerOfTwo_iff] at hpow
  simp [cfgRefusal, hcap.not_gt, hpow]

theorem cfgRefusal_of_few_stages {capacity syncStages : Nat} (hcap : 2 ≤ capacity) (hpow : ∃ k, capacity = 2 ^ k)
    (hstages : syncStages < 2) : cfgRefusal capacity true syncStages = some .syncStages := by
  rw [← isPowerOfTwo_iff] at hpow
  simp [cfgRefusal, hcap.not_gt, hpow, hstages]

theorem cfgRefusal_of_accepted {capacity syncStages : Nat} {cdc : Bool} (hcap : 2 ≤ capacity)
    (hcdc : cdc = true → (∃ k, capacity = 2 ^ k) ∧ 2 ≤ syncStages) : cfgRefusal capacity cdc syncStages = none := by
  refine cfgRefusal_eq_none.mpr ⟨hcap, fun h => ?_⟩
  obtain ⟨hpow, hstages⟩ := hcdc h
  exact ⟨beq_iff_eq.mp (isPowerOfTwo_iff.mpr hpow), hstages⟩

end Sys2Proof

namespace Sys2Proof.Machine

open Sys2Proof

theorem elaborate_of_refusal {capacity syncStages : Nat} {cdc : Bool} {r : CfgRefusal}
    (h : cfgRefusal capacity cdc syncStages = some r) : elaborate capacity cdc syncStages = .refused (.config r) := by
  unfold elaborate
  split
  · next hnone => cases h.symm.trans hnone
  · next r' hr' => cases h.symm.trans hr'; rfl

theorem elaborate_of_accepted {capacity syncStages : Nat} {cdc : Bool}
    (h : cfgRefusal capacity cdc syncStages = none) :
    elaborate capacity cdc syncStages = .next { capacity, cdc, syncStages, accepted := h } := by
  unfold elaborate
  split
  · rfl
  · next r hr => cases h.symm.trans hr

/-- Settles O2: elaboration answers as `cfgRefusal` does, whose tests stand in the order of R99. -/
theorem elaborationRefusesInOrder : Obligations.ElaborationRefusesInOrder := by
  intro capacity cdc syncStages
  refine ⟨fun h => elaborate_of_refusal (cfgRefusal_of_lt cdc syncStages h), ?_, ?_, fun hcap hcdc => ?_⟩
  · rintro hcap rfl hpow
    exact elaborate_of_refusal (cfgRefusal_of_not_power syncStages hcap hpow)
  · rintro hcap rfl hpow hstages
    exact elaborate_of_refusal (cfgRefusal_of_few_stages hcap hpow hstages)
  · exact ⟨_, elaborate_of_accepted (cfgRefusal_of_accepted hcap hcdc), rfl, rfl, rfl⟩

end Sys2Proof.Machine
end

section
/-!
PROOFS. The exceptions, second part: what raises each fault (R100 to R102), what a step that records one leaves (R103), which one a cycle
of both ports records (R104), the stopped block (R105), and that legal commands raise none (R95).
-/

namespace Sys2Proof.Machine

open Sys2Proof

/-! ### Faults that decoding alone finds -/

theorem verdict_of_op_reserved {w : CmdWord} (q : Port) (h : opField w = 0b11#2) :
    (decode q w).verdict = some .illegalOp := by
  rw [decode_of_op_reserved q h]
  rfl

theorem verdict_of_put_on_c {w : CmdWord} (h : opField w = 0b01#2) : (decode .c w).verdict = some .portRole := by
  rw [decode_of_op_put .c h]
  rfl

theorem verdict_of_get_on_p {w : CmdWord} (h : opField w = 0b10#2) : (decode .p w).verdict = some .portRole := by
  rw [decode_of_op_get .p h]
  rfl

/-- Decoding reads no slot. -/
theorem verdict_ne_unwrittenSlot (i : Instr) : i.verdict ≠ some .unwrittenSlot := by
  cases i with
  | nop => nofun
  | put q => cases q <;> nofun
  | get q => cases q <;> nofun
  | reservedOp11 => nofun

/-- The effect of a word that decoding finds illegal on the port that presents it. -/
theorem effect_of_verdict {q : Port} {w : CmdWord} {code : FaultCode} (s : State)
    (hcode : (decode q w).verdict = some code) : Effect (decode q w) s (raiseFault code q s) := by
  have heffect := Effect.illegal (decode q w) s code hcode
  rwa [port_decode] at heffect

/-- A step of one port whose word decoding finds illegal records that fault (60_exceptions R100, R101). -/
theorem step_presentOn_of_verdict {q : Port} {w : CmdWord} {code : FaultCode} {s : State} {rest : List Event}
    (hr : s.fault = none) (henv : s.env = presentOn q w :: rest) (hcode : (decode q w).verdict = some code) :
    step s = .next (raiseFault code q (setEnv rest s)) := by
  rw [step_of_cons henv, perform_presentOn]
  exact exec_of_effect (s := setEnv rest s) hr (effect_of_verdict _ hcode)

/-- Settles O12: the reserved command is illegal on either port, and so is every word that decodes to it. -/
theorem reservedWordRaisesIllegalOp : Obligations.ReservedWordRaisesIllegalOp :=
  fun q s hr => ⟨exec_of_effect hr (.illegal (.reservedOp11 q) s .illegalOp rfl),
    fun _ _ hop henv => step_presentOn_of_verdict hr henv (verdict_of_op_reserved q hop)⟩

/-- Settles O13: PUT is illegal on C and GET on P. -/
theorem wrongPortRaisesPortRole : Obligations.WrongPortRaisesPortRole :=
  fun _ _ _ hr => ⟨fun hop henv => step_presentOn_of_verdict (q := .c) hr henv (verdict_of_put_on_c hop),
    fun hop henv => step_presentOn_of_verdict (q := .p) hr henv (verdict_of_get_on_p hop)⟩

/-! ### The stopped block -/

theorem whenRunning_of_faulted {s : State} {code : FaultCode} {q : Port} (k : Host.Outcome State Fault Refusal)
    (h : s.fault = some (code, q)) : whenRunning s k = .fault (.blockFaulted code q) := by
  simp [whenRunning, h]

/-- No agent that exists on the block steps while a fault is recorded (60_exceptions R105). -/
theorem perform_of_faulted {e : Event} {s : State} {code : FaultCode} {q : Port} (h : s.fault = some (code, q))
    (hagent : e.isAgentStep = true) (hpossible : e.possible s.cfg = true) :
    perform e s = .fault (.blockFaulted code q) := by
  cases e with
  | cycle pCmd cCmd =>
    rw [perform_cycle_of_not_cdc pCmd cCmd ((Bool.not_eq_true' _).mp hpossible), bothPorts, exec_of_faulted h]
  | stepP pCmd => exact exec_of_faulted h
  | stepC cCmd => exact exec_of_faulted h
  | stepSH => exact (if_pos hpossible).trans (whenRunning_of_faulted _ h)
  | stepST => exact (if_pos hpossible).trans (whenRunning_of_faulted _ h)
  | rst => cases hagent
  | rstPart => cases hagent

/-- Only a reset answers a next state on a block that does not run (60_exceptions R105). -/
theorem perform_running_or_reset {e : Event} {s t : State} (h : perform e s = .next t) :
    s.fault = none ∨ ∃ pCmd cCmd, e = .rst pCmd cCmd ∧ t = resetBlock s := by
  obtain ⟨_, _, -, -, hboth⟩ | ⟨_, -, hexec⟩ | ⟨_, -, hexec⟩ | ⟨-, -, hr, -⟩ | ⟨-, -, hr, -⟩ | hreset := perform_next h
  · exact .inl (bothPorts_next hboth).1
  · exact .inl (exec_next hexec).1
  · exact .inl (exec_next hexec).1
  · exact .inl hr
  · exact .inl hr
  · exact .inr hreset

/-- Settles O39: every agent's step tests the fault register first, and a reset does not read it. -/
theorem faultedBlockTakesNoStepUntilReset : Obligations.FaultedBlockTakesNoStepUntilReset := by
  intro s code q hf
  refine ⟨fun e rest henv hagent hpossible => ?_, fun henv => ?_, fun pCmd cCmd rest henv => ?_, fun t hstep => ?_⟩
  · rw [step_of_cons henv]
    exact perform_of_faulted (s := setEnv rest s) hf hagent hpossible
  · rw [step_of_nil henv]
    exact whenRunning_of_faulted _ hf
  · exact ⟨_, step_of_cons henv, resetBlock_fault _⟩
  · obtain ⟨-, hr, -⟩ | ⟨e, rest, henv, hperform⟩ := step_next hstep
    · cases hf.symm.trans hr
    · obtain hr | ⟨pCmd, cCmd, rfl, -⟩ := perform_running_or_reset hperform
      · cases hf.symm.trans hr
      · exact ⟨pCmd, cCmd, rest, henv⟩

/-! ### Fault entry -/

/-- A command that leaves a running block with a fault recorded it, for its own port, and did nothing else. -/
theorem Effect.eq_raiseFault {i : Instr} {s t : State} {code : FaultCode} {q : Port} (h : Effect i s t)
    (hr : s.fault = none) (hf : t.fault = some (code, q)) : t = raiseFault code q s := by
  obtain hkept | ⟨code', rfl⟩ := h.fault_cases
  · cases (hkept.trans hr).symm.trans hf
  · cases hf
    rfl

/-- A fault that a step of both ports leaves is the effect of the command of one port alone. -/
theorem bothPorts_fault {ip ic : Instr} {s t : State} {code : FaultCode} {q : Port} (h : bothPorts ip ic s = .next t)
    (hf : t.fault = some (code, q)) : Effect ip s t ∨ Effect ic s t := by
  obtain ⟨hr, ⟨_, ep, rfl⟩ | ⟨_, _, -, -, ec, rfl⟩ | ⟨sp, sc, -, -, -, -, rfl⟩⟩ := bothPorts_next h
  · exact .inl ep
  · exact .inr ec
  · cases hr.symm.trans hf

/-- A fault that an event leaves is the effect of a command that a port presents in it. -/
theorem perform_fault {e : Event} {s t : State} {code : FaultCode} {q : Port} (h : perform e s = .next t)
    (hr : s.fault = none) (hf : t.fault = some (code, q)) :
    ∃ i, (e.pInstr = some i ∨ e.cInstr = some i) ∧ Effect i s t := by
  obtain ⟨pCmd, cCmd, rfl, -, hboth⟩ | ⟨pCmd, rfl, hexec⟩ | ⟨cCmd, rfl, hexec⟩ | ⟨-, -, -, rfl⟩ | ⟨-, -, -, rfl⟩ |
    ⟨_, _, -, rfl⟩ := perform_next h
  · obtain ep | ec := bothPorts_fault hboth hf
    · exact ⟨_, .inl rfl, ep⟩
    · exact ⟨_, .inr rfl, ec⟩
  · exact ⟨_, .inl rfl, (exec_next hexec).2⟩
  · exact ⟨_, .inr rfl, (exec_next hexec).2⟩
  · cases hr.symm.trans hf
  · cases hr.symm.trans hf
  · cases hf

/-- A step that ends with a fault recorded ran on a running block, and the fault is the effect of a command presented in it. -/
theorem step_fault {s t : State} {code : FaultCode} {q : Port} (h : step s = .next t) (hf : t.fault = some (code, q)) :
    s.fault = none ∧ ∃ e rest i, s.env = e :: rest ∧ (e.pInstr = some i ∨ e.cInstr = some i) ∧
      Effect i (setEnv rest s) t := by
  obtain ⟨-, hr, rfl⟩ | ⟨e, rest, henv, hperform⟩ := step_next h
  · cases hr.symm.trans hf
  · obtain hr | ⟨_, _, -, rfl⟩ := perform_running_or_reset hperform
    · obtain ⟨i, hi, heffect⟩ := perform_fault hperform hr hf
      exact ⟨hr, e, rest, i, henv, hi, heffect⟩
    · cases hf

/-- Settles O37: the fault is the effect of one command, and a command that records a fault writes nothing else. -/
theorem faultEntryIsPrecise : Obligations.FaultEntryIsPrecise := by
  intro s t hstep _ hfault
  obtain ⟨⟨code, q⟩, hf⟩ := Option.ne_none_iff_exists'.mp hfault
  obtain ⟨hr, e, rest, i, henv, -, heffect⟩ := step_fault hstep hf
  refine ⟨e, rest, henv, ?_⟩
  rw [hf]
  exact heffect.eq_raiseFault hr hf

/-! ### The order of the faults of one step -/

/-- A command of port P that decoding finds legal records no fault. -/
theorem Effect.fault_kept_of_p {i : Instr} {s t : State} (h : Effect i s t) (hport : i.port = .p)
    (hlegal : i.verdict = none) : t.fault = s.fault := by
  cases h with
  | nop => rfl
  | full => rfl
  | stored => rfl
  | empty => rfl
  | taken => rfl
  | unwritten => cases hport
  | illegal _ _ _ hcode => cases hlegal.symm.trans hcode

theorem step_of_cycle {s : State} {pCmd cCmd : CmdWord} {rest : List Event} (hcdc : s.cfg.cdc = false)
    (henv : s.env = .cycle pCmd cCmd :: rest) :
    step s = bothPorts (decode .p pCmd) (decode .c cCmd) (setEnv rest s) := by
  rw [step_of_cons henv]
  exact perform_cycle_of_not_cdc (s := setEnv rest s) pCmd cCmd hcdc

/-- Where P's command is legal, a fault of C's is the cycle's. -/
theorem step_cycle_fault_c {s sc : State} {pCmd cCmd : CmdWord} {rest : List Event} (hwf : s.wf = true)
    (hcdc : s.cfg.cdc = false) (hr : s.fault = none) (henv : s.env = .cycle pCmd cCmd :: rest)
    (hlegal : (decode .p pCmd).verdict = none) (ec : Effect (decode .c cCmd) (setEnv rest s) sc)
    (hc : sc.fault.isSome = true) : step s = .next sc := by
  obtain ⟨sp, ep⟩ := Effect.exists_of_wf (s := setEnv rest s) hwf (decode .p pCmd)
  have hp : sp.fault = none := (ep.fault_kept_of_p (port_decode .p pCmd) hlegal).trans hr
  rw [step_of_cycle hcdc henv]
  exact bothPorts_of_fault_c (s := setEnv rest s) hr ep hp ec hc

/-- Settles O38: P's fault ends the cycle before C's command is looked at, and C's is the cycle's where P's command is legal. -/
theorem faultPriority : Obligations.FaultPriority := by
  intro s pCmd cCmd rest hwf hcdc hr henv
  refine ⟨fun code hcode => ?_, fun code hlegal hcode => ?_, fun hlegal hget hsome hread => ?_,
    fun q w => verdict_of_op_reserved q⟩
  · rw [step_of_cycle hcdc henv]
    exact bothPorts_of_fault_p (s := setEnv rest s) hr (effect_of_verdict _ hcode) rfl
  · exact step_cycle_fault_c hwf hcdc hr henv hlegal (effect_of_verdict _ hcode) rfl
  · obtain ⟨hhead, -⟩ := wf_iff.mp hwf
    have ec : Effect (.get .c) (setEnv rest s) (raiseFault .unwrittenSlot .c (setEnv rest s)) :=
      .unwritten (setEnv rest s) hsome hhead hread
    exact step_cycle_fault_c hwf hcdc hr henv hlegal (hget ▸ ec) rfl

/-! ### Faults under the invariant -/

/-- Under the invariant the slot a GET takes is written, so only decoding finds a fault. -/
theorem Effect.verdict_of_fault {i : Instr} {s t : State} {code : FaultCode} {q : Port} (h : Effect i s t) (hinv : s.Inv)
    (hr : s.fault = none) (hf : t.fault = some (code, q)) : i.verdict = some code := by
  cases h with
  | nop => cases hr.symm.trans hf
  | full => cases hr.symm.trans hf
  | stored => cases hr.symm.trans hf
  | empty => cases hr.symm.trans hf
  | taken => cases hr.symm.trans hf
  | unwritten _ hsome _ hread =>
    obtain ⟨v, hv⟩ := hinv.read_head hsome
    cases hread.symm.trans hv
  | illegal _ _ _ hcode =>
    cases hf
    exact hcode

/-- Under the invariant a fault that a step leaves is the verdict of a command presented in it. -/
theorem State.Inv.verdict_of_step_fault {s t : State} {code : FaultCode} {q : Port} (hinv : s.Inv)
    (h : step s = .next t) (hf : t.fault = some (code, q)) :
    ∃ e i, s.env.head? = some e ∧ (e.pInstr = some i ∨ e.cInstr = some i) ∧ i.verdict = some code := by
  obtain ⟨hr, e, rest, i, henv, hi, heffect⟩ := step_fault h hf
  exact ⟨e, i, by rw [henv, List.head?_cons], hi, heffect.verdict_of_fault (inv_setEnv hinv rest) hr hf⟩

/-- Settles O14: every state of an execution meets the invariant, and no verdict of decoding is UNWRITTEN_SLOT. -/
theorem unwrittenSlotFaultsAndIsUnreachable : Obligations.UnwrittenSlotFaultsAndIsUnreachable := by
  refine ⟨fun s hr hhead hsome hread => exec_of_effect hr (.unwritten s hsome hhead hread), fun h s q hex hf => ?_⟩
  cases hex with
  | reset => cases hf
  | step before taken =>
    obtain ⟨_, i, -, -, hcode⟩ := before.inv.verdict_of_step_fault taken hf
    exact verdict_ne_unwrittenSlot i hcode

/-! ### Legal commands -/

theorem bothPorts_answers {s : State} (ip ic : Instr) (hwf : s.wf = true) (hr : s.fault = none) :
    ∃ t, bothPorts ip ic s = .next t := by
  obtain ⟨sp, ep⟩ := Effect.exists_of_wf hwf ip
  obtain ⟨sc, ec⟩ := Effect.exists_of_wf hwf ic
  cases hp : sp.fault with
  | some => exact ⟨sp, bothPorts_of_fault_p hr ep (by rw [hp, Option.isSome_some])⟩
  | none =>
    cases hc : sc.fault with
    | some => exact ⟨sc, bothPorts_of_fault_c hr ep hp ec (by rw [hc, Option.isSome_some])⟩
    | none => exact ⟨mergePorts s sp sc, bothPorts_of_effects hr ep hp ec hc⟩

theorem exec_answers {s : State} (i : Instr) (hwf : s.wf = true) (hr : s.fault = none) : ∃ t, exec i s = .next t := by
  obtain ⟨t, heffect⟩ := Effect.exists_of_wf hwf i
  exact ⟨t, exec_of_effect hr heffect⟩

/-- On a well-formed running state every event that exists on the block answers a next state. -/
theorem perform_answers {e : Event} {s : State} (hwf : s.wf = true) (hr : s.fault = none)
    (hpossible : e.possible s.cfg = true) : ∃ t, perform e s = .next t := by
  cases e with
  | cycle pCmd cCmd =>
    rw [perform_cycle_of_not_cdc pCmd cCmd ((Bool.not_eq_true' _).mp hpossible)]
    exact bothPorts_answers (decode .p pCmd) (decode .c cCmd) hwf hr
  | stepP pCmd => exact exec_answers (decode .p pCmd) hwf hr
  | stepC cCmd => exact exec_answers (decode .c cCmd) hwf hr
  | stepSH => exact ⟨sampleHead s, stepSH_of_running hpossible hr⟩
  | stepST => exact ⟨sampleTail s, stepST_of_running hpossible hr⟩
  | rst => exact ⟨resetBlock s, rfl⟩
  | rstPart => cases hpossible

theorem step_answers {s : State} (hwf : s.wf = true) (hr : s.fault = none)
    (hpossible : ∀ e, s.env.head? = some e → e.possible s.cfg = true) : ∃ t, step s = .next t := by
  cases henv : s.env with
  | nil => exact ⟨_, (step_of_nil henv).trans (whenRunning_of_running hr)⟩
  | cons e rest =>
    rw [step_of_cons henv]
    exact perform_answers (s := setEnv rest s) hwf hr (hpossible e (by rw [henv, List.head?_cons]))

/-- Every step keeps the invariant. -/
theorem State.Inv.of_step {s t : State} (hinv : s.Inv) (hstep : step s = .next t) : t.Inv := by
  obtain ⟨hwf, h, hs⟩ := hinv
  exact ⟨stepKeepsWellFormed s t hwf hstep, _, holds_step hs hstep⟩

/-- A command that an event of legal commands presents has no verdict. -/
theorem verdict_of_commandsLegal {e : Event} {i : Instr} (h : e.commandsLegal = true)
    (hi : e.pInstr = some i ∨ e.cInstr = some i) : i.verdict = none := by
  obtain ⟨hp, hc⟩ := Bool.and_eq_true_iff.mp h
  refine (legalCommandsHaveNoVerdict i).mp ?_
  obtain hi | hi := hi
  · simpa [hi] using hp
  · simpa [hi] using hc

/-- Settles O56: the step answers, and a fault it left would be the verdict of a legal command. -/
theorem legalCommandsNeverFault : Obligations.LegalCommandsNeverFault := by
  intro s hinv hr hlegal
  have ⟨hwf, _⟩ := hinv
  obtain ⟨t, hstep⟩ := step_answers hwf hr fun e he => (hlegal e he).1
  refine ⟨t, hstep, Option.eq_none_iff_forall_ne_some.mpr fun ⟨code, q⟩ hf => ?_, hinv.of_step hstep⟩
  obtain ⟨e, i, he, hi, hcode⟩ := hinv.verdict_of_step_fault hstep hf
  cases hcode.symm.trans (verdict_of_commandsLegal (hlegal e he).2 hi)

end Sys2Proof.Machine
end

section
/-!
PROOFS. Reset and hazards (spec/70_reset_and_hazards.md): a reset and what it leaves (R110, R111), the refused partial reset (R112),
the order of construction, reset and commands (R113, R114, R116), and the end of a run (R115).
-/

namespace Sys2Proof.Machine

open Sys2Proof

/-! ### The reset step -/

theorem step_of_rst {s : State} {pCmd cCmd : CmdWord} {rest : List Event} (henv : s.env = .rst pCmd cCmd :: rest) :
    step s = .next (setEnv rest (State.resetOf s.cfg)) :=
  step_of_cons henv

/-- Nothing is resident after a reset, so both counts are 0, through the chains of a block with CDC too. -/
theorem counts_resetOf (cfg : Cfg) (es : List Event) :
    cCount (setEnv es (State.resetOf cfg)) = 0 ∧ pCount (setEnv es (State.resetOf cfg)) = 0 := by
  have hs := holds_resetOf cfg es
  have hnp : (History.begin cfg).np = 0 := rfl
  have hc := hs.cCount_le
  have hp := hs.pCount_eq
  rw [hs.countTrue_eq] at hc
  omega

theorem cEmpty_resetOf (cfg : Cfg) (es : List Event) : cEmpty (setEnv es (State.resetOf cfg)) = true :=
  (cEmpty_iff_cCount (resetOf_wf cfg)).mpr (counts_resetOf cfg es).1

/-- A block has at least two slots, so the count 0 is not the full one. -/
theorem pFull_resetOf (cfg : Cfg) (es : List Event) : pFull (setEnv es (State.resetOf cfg)) = false := by
  have hwf : (setEnv es (State.resetOf cfg)).wf = true := resetOf_wf cfg
  have hcap := cfg.two_le_capacity
  rw [← Bool.not_eq_true, pFull_iff_pCount hwf, (counts_resetOf cfg es).2, setEnv_cfg, resetOf_cfg]
  omega

/-- Settles O42: the reset state counts no element in either view, and a faulted block performs nothing but a reset. -/
theorem resetStepRestoresEverything : Obligations.ResetStepRestoresEverything := by
  refine ⟨fun s pCmd cCmd rest henv => ?_, fun s t hstep hfault _ => ?_⟩
  · obtain ⟨hc, hp⟩ := counts_resetOf s.cfg rest
    exact ⟨_, step_of_rst henv, rfl, rfl, rfl, cEmpty_resetOf s.cfg rest, pFull_resetOf s.cfg rest, hc, hp⟩
  · obtain ⟨⟨code, q⟩, hf⟩ := Option.ne_none_iff_exists'.mp hfault
    obtain ⟨-, -, -, honlyReset⟩ := faultedBlockTakesNoStepUntilReset s code q hf
    exact honlyReset t hstep

/-! ### The host's actions -/

theorem Run.present_of_next {e : Event} {r : Run} {t : State} (h : step (setEnv (e :: r.state.env) r.state) = .next t) :
    Run.present e r = .next (r.record e t) := by
  simp [Run.present, h]

theorem hostStep_present_of_next {e : Event} {r r' : Run} (h : Run.present e r = .next r') :
    hostStep (.present e) (.running r) = .next (.running r') := by
  simp [hostStep, h]

theorem hostStep_present_of_fault {e : Event} {r : Run} {f : Fault}
    (h : step (setEnv (e :: r.state.env) r.state) = .fault f) : hostStep (.present e) (.running r) = .fault f := by
  simp [hostStep, Run.present, h]

theorem hostStep_present_of_refused {e : Event} {r : Run} {why : Refusal}
    (h : step (setEnv (e :: r.state.env) r.state) = .refused why) : hostStep (.present e) (.running r) = .refused why := by
  simp [hostStep, Run.present, h]

theorem hostStep_construct_of_next {capacity syncStages : Nat} {cdc : Bool} {cfg : Cfg}
    (h : elaborate capacity cdc syncStages = .next cfg) :
    hostStep (.construct capacity cdc syncStages) .unbuilt = .next (.built cfg) := by
  simp [hostStep, h]

theorem hostStep_construct_of_refused {capacity syncStages : Nat} {cdc : Bool} {why : Refusal}
    (h : elaborate capacity cdc syncStages = .refused why) :
    hostStep (.construct capacity cdc syncStages) .unbuilt = .refused why := by
  simp [hostStep, h]

/-- A block that was never reset has no state for an agent to step (70_reset_and_hazards R114). -/
theorem presentBeforeReset_of_isAgentStep {e : Event} (cfg : Cfg) (h : e.isAgentStep = true) :
    presentBeforeReset cfg e = .refused .beforeFirstReset := by
  cases e with
  | cycle | stepP | stepC | stepSH | stepST => rfl
  | rst | rstPart => cases h

theorem step_of_rstPart {s : State} {part : ResetPart} {rest : List Event} (henv : s.env = .rstPart part :: rest) :
    step s = .refused .partialReset :=
  step_of_cons henv

/-- Settles O43: the block refuses the event, and so does whatever presents it to the block. -/
theorem partialResetIsRefused : Obligations.PartialResetIsRefused := by
  refine fun part s rest life => ⟨step_of_rstPart, by cases life <;> rfl, fun hbuilt => ?_⟩
  cases life with
  | unbuilt => exact (hbuilt rfl).elim
  | built => rfl
  | running r => exact hostStep_present_of_refused (step_of_rstPart (setEnv_env _ r.state))

theorem Event.isReset_eq_false {e : Event} (h : ∀ pCmd cCmd, e ≠ .rst pCmd cCmd) : e.isReset = false := by
  cases e with
  | cycle | stepP | stepC | stepSH | stepST | rstPart => rfl
  | rst pCmd cCmd => exact (h pCmd cCmd rfl).elim

/-- Settles O44: before the first reset the phase of the block's life decides, and a running block answers what `step` answers. -/
theorem lifecycleOrder : Obligations.LifecycleOrder := by
  intro capacity cdc syncStages cfg e pCmd cCmd r
  refine ⟨hostStep_construct_of_next, fun why => hostStep_construct_of_refused, rfl, rfl,
    presentBeforeReset_of_isAgentStep cfg, rfl, hostStep_present_rst pCmd cCmd (.built cfg), rfl,
    hostStep_present_rst pCmd cCmd (.running r), fun t hstep => ?_, fun f => hostStep_present_of_fault,
    fun why => hostStep_present_of_refused, rfl, rfl⟩
  have hpresent := Run.present_of_next hstep
  refine ⟨_, hpresent, hostStep_present_of_next hpresent, fun hreset => ?_⟩
  rw [Run.record_of_not_reset (Event.isReset_eq_false hreset)]

/-! ### The end of a run -/

theorem decode_eq_nop_iff {q : Port} {w : CmdWord} : decode q w = .nop q ↔ opField w = 0b00#2 := by
  rw [decode_eq_iff]
  exact ⟨fun ⟨_, hop, _⟩ => hop, fun hop => ⟨rfl, hop, nofun⟩⟩

/-- The words of an event are all NOP: those of the ports that act, and those that a reset ignores (log 20). -/
theorem Event.commandsIdle_iff {e : Event} :
    e.commandsIdle = true ↔
      (e.pInstr = none ∨ e.pInstr = some (.nop .p)) ∧ (e.cInstr = none ∨ e.cInstr = some (.nop .c)) ∧
        ∀ pCmd cCmd, e = .rst pCmd cCmd → decode .p pCmd = .nop .p ∧ decode .c cCmd = .nop .c := by
  cases e with
  | cycle | stepP | stepC => simp [Event.commandsIdle, Event.pInstr, Event.cInstr, decode_eq_nop_iff]
  | stepSH | stepST | rstPart => simp [Event.commandsIdle, Event.pInstr, Event.cInstr]
  | rst pCmd cCmd =>
    simp only [Event.commandsIdle, Event.pInstr, Event.cInstr, decode_eq_nop_iff, Bool.and_eq_true, beq_iff_eq, true_or,
      true_and]
    exact ⟨by rintro hidle _ _ ⟨⟩; exact hidle, fun h => h pCmd cCmd rfl⟩

theorem Run.endsSuccessfully_iff {r : Run} :
    r.endsSuccessfully = true ↔ r.state.fault = none ∧ ∀ e ∈ r.state.env, e.commandsIdle = true := by
  simp [Run.endsSuccessfully]

theorem Memory.view_getElem? (m : Memory) {capacity i : Nat} (h : i < capacity) :
    (Memory.view m capacity)[i]? = some (Memory.read m i) := by
  simp [Memory.view, h]

theorem Memory.view_length (m : Memory) (capacity : Nat) : (Memory.view m capacity).length = capacity := by
  simp [Memory.view]

theorem Event.actsP_eq_isSome (e : Event) : e.actsP = e.pInstr.isSome := by
  cases e <;> rfl

theorem Event.actsC_eq_isSome (e : Event) : e.actsC = e.cInstr.isSome := by
  cases e <;> rfl

/-- Settles O60: only NOP words are left exactly when every event left is idle, and a step is recorded for the ports that act. -/
theorem endOfRunObservation : Obligations.EndOfRunObservation := by
  refine fun r => ⟨?_, rfl, rfl, rfl, fun i => Memory.view_getElem? r.state.slots,
    Memory.view_length r.state.slots r.state.cfg.capacity, rfl, rfl, fun e t hstep hreset => ?_,
    fun pCmd cCmd => Run.present_rst pCmd cCmd r⟩
  · simp only [Run.endsSuccessfully_iff, Event.commandsIdle_iff]
  · rw [← Event.actsP_eq_isSome, ← Event.actsC_eq_isSome, ← Run.record_of_not_reset (Event.isReset_eq_false hreset)]
    exact Run.present_of_next hstep

end Sys2Proof.Machine
end
